-- ==== Sys2Proof/Word.lean ====
section
/-!
DEFINITION. The widths of the block: bytes, 16-bit words, 32-bit host registers and command words
(00_scope.md R8). Every value is unsigned (R8).
-/

namespace Sys2Proof

/-- A byte, 8 bits, unsigned (R8). -/
abbrev Byte := BitVec 8

/-- A word, 16 bits, unsigned (R8): a CRC value, a length register. -/
abbrev Word := BitVec 16

/-- A host register's value, and a command word: 32 bits (R8, 30_encoding.md R70). -/
abbrev HostWord := BitVec 32

end Sys2Proof
end

