-- ==== Sys2Proof/Config.lean ====
section
/-!
DEFINITION. What is fixed for one block: the parameters of 00_scope.md R7 and the window's base address
(20_memory.md R50), and the free values (10_state.md R36).
-/

namespace Sys2Proof

/-- The parameters of one block.
`sfcBase` is SFC_BASE (R50; 93 U6), `pbufSize` is PBUF_SIZE and `fbufSize` is FBUF_SIZE (R7; 93 U5).
Which values are legal is `Params.legal` (WellFormed.lean). -/
structure Params where
  sfcBase  : Nat
  pbufSize : Nat
  fbufSize : Nat
  deriving DecidableEq, Repr

/-- The spec's default sizes (R7: PBUF_SIZE 252, FBUF_SIZE 513) at a base address of 0.
DESIGN CHOICE (log 2): the spec leaves SFC_BASE to the platform; no statement may rest on the 0. -/
def Params.standard : Params := { sfcBase := 0, pbufSize := 252, fbufSize := 513 }

namespace Config

/-- The free bytes (10_state.md R36): the value the `k`-th draw gives. It has no body, so nothing can be
proved of any of its values: a claim holds whatever is drawn. The state's counter `draws` says which draw is
next (log 4). -/
opaque freeByte : Nat → Byte

end Config

end Sys2Proof
end

