-- ==== Sys2Proof/HostAccess.lean ====
section
/-!
DEFINITION. What the host can do to the block, as data: the registers it names (10_state.md R20), the accesses
it makes (20_memory.md R51 to R53) and the values its reads return (70_reset_and_hazards.md R269).
-/

namespace Sys2Proof

/-- The eleven registers of R20, in the order of their offsets. -/
inductive Reg where
  | cmd | status | crc | lsum | lrc | slave | func | plen | flen | rxchk | caps
  deriving DecidableEq, Repr

/-- The two byte buffers (R31, R32). -/
inductive Buffer where
  | pbuf | fbuf
  deriving DecidableEq, Repr

/-- One host access, as the listings of 95_test_vectors.md write it (`R32`, `W32`, `R8`, `W8`), at an address of
the host's address space (the window begins at SFC_BASE, R50). An access of any other width is
`otherWidth`: R53 gives it no meaning, so neither its direction nor its data matters. -/
inductive HostAccess where
  | read32 (addr : Nat)
  | write32 (addr : Nat) (v : HostWord)
  | read8 (addr : Nat)
  | write8 (addr : Nat) (b : Byte)
  | otherWidth (bits : Nat) (addr : Nat)
  deriving DecidableEq, Repr

/-- A value a host read returned: 32 bits from a register (R51), 8 bits from a buffer (R52). -/
inductive Observation where
  | word (v : HostWord)
  | byte (b : Byte)
  deriving DecidableEq, Repr

end Sys2Proof
end

