-- ==== Sys2Proof/Syntax.lean ====
section
/-!
DEFINITION. The commands of EMB-SFC command set version 1: one constructor per row of opcode_table.json
(30_encoding.md R73).
-/

namespace Sys2Proof

/-- A command (what an ISA calls an instruction). The only operand in a command word is IMM8, an unsigned
byte (R71); all others are registers and buffer bytes named by the command's rule. -/
inductive Instr where
  /-- CRC_INIT (40_checksum.md R104). -/
  | crcInit
  /-- CRC_BYTE b (R105). -/
  | crcByte (b : Byte)
  /-- CRC_FBUF (R106). -/
  | crcFbuf
  /-- LRC_INIT (R110). -/
  | lrcInit
  /-- LRC_BYTE b (R111). -/
  | lrcByte (b : Byte)
  /-- LRC_FBUF (R112). -/
  | lrcFbuf
  /-- RTU_ENCODE (41_rtu_codec.md R141). -/
  | rtuEncode
  /-- RTU_DECODE (R145). -/
  | rtuDecode
  /-- ASCII_ENCODE (42_ascii_codec.md R181). -/
  | asciiEncode
  /-- ASCII_DECODE (R185). -/
  | asciiDecode
  /-- SOFT_RESET (43_control.md R210). -/
  | softReset
  deriving DecidableEq, Repr

end Sys2Proof
end

