-- ==== Sys2Proof/WellFormed.lean ====
section
/-!
DEFINITION. The checks the spec makes on what comes from outside: parameters (00_scope.md R7), command words
(30_encoding.md R72), host accesses (20_memory.md R51 to R53). Each is written from the spec's prose, beside
the code that runs (the decoder's table, the host port), so that the two can be proved to agree.

There is no check on `Instr` itself: its only operand is IMM8, and every byte is legal there (R71).
-/

namespace Sys2Proof

/-- Legal parameters (R7): PBUF_SIZE 1 to 4092, FBUF_SIZE 4 to 4096, FBUF_SIZE >= PBUF_SIZE + 4.
Any base address is legal (R50). -/
def Params.legal (p : Params) : Bool :=
  1 ≤ p.pbufSize && p.pbufSize ≤ 4092 && 4 ≤ p.fbufSize && p.fbufSize ≤ 4096
    && p.pbufSize + 4 ≤ p.fbufSize

/-- The opcodes R73 assigns to a command that takes no immediate. -/
def opcodesWithoutImmediate : List Nat := [0x01, 0x03, 0x08, 0x0A, 0x10, 0x11, 0x20, 0x21, 0xFF]

/-- The opcodes R73 assigns to a command that takes IMM8: CRC_BYTE and LRC_BYTE. -/
def opcodesWithImmediate : List Nat := [0x02, 0x09]

/-- A legal command word, by the three grounds of R72, with OP = w mod 2^8, IMM8 the next 8 bits and RSV the
16 above (R70): the opcode is assigned, RSV is 0, and IMM8 is 0 where the command takes no immediate. -/
def commandWordLegal (w : HostWord) : Bool :=
  let op := w.toNat % 256
  let imm8 := w.toNat / 256 % 256
  let rsv := w.toNat / 65536
  rsv == 0 && (opcodesWithImmediate.contains op || (opcodesWithoutImmediate.contains op && imm8 == 0))

/-- An access the spec gives a meaning (R51, R52): 32 bits at an offset that is a multiple of 4 inside 0x0000
to 0x002B, or 8 bits at an offset inside the PBUF or the FBUF range of R50. Every other access is outside
the spec (R53). -/
def HostAccess.wellFormed (p : Params) : HostAccess → Bool
  | .read32 a | .write32 a _ => p.sfcBase ≤ a && a - p.sfcBase ≤ 0x2B && (a - p.sfcBase) % 4 == 0
  | .read8 a | .write8 a _ =>
      (p.sfcBase + 0x1000 ≤ a && a < p.sfcBase + 0x1000 + p.pbufSize)
        || (p.sfcBase + 0x2000 ≤ a && a < p.sfcBase + 0x2000 + p.fbufSize)
  | .otherWidth _ _ => false

end Sys2Proof
end

