-- ==== Sys2Proof/Decode.lean ====
section
/-!
DEFINITION. Decoding a command word, from the mask and match columns of 30_encoding.md R73, and the encoder
beside it, from the same table.
-/

namespace Sys2Proof

/-- OP, bits 7:0 of a command word (R70). -/
def opField (w : HostWord) : Byte := w.extractLsb' 0 8

/-- IMM8, bits 15:8 of a command word (R70). -/
def immField (w : HostWord) : Byte := w.extractLsb' 8 8

/-- RSV, bits 31:16 of a command word (R70). -/
def rsvField (w : HostWord) : Word := w.extractLsb' 16 16

/-- Why a word is illegal: the three grounds of R72. -/
inductive IllegalWord where
  /-- OP is not assigned in R73. -/
  | unassignedOpcode
  /-- RSV is not 0. -/
  | reservedNotZero
  /-- IMM8 is not 0 for a command that takes no immediate. -/
  | immediateNotZero
  deriving DecidableEq, Repr

/-- A row of the opcode map: the word selects the command when `w & mask == pattern` (R73; `pattern` is the
column "match"). `build` gives the command, with IMM8 for its operand where it takes one. -/
structure OpcodeRow where
  pattern : HostWord
  mask    : HostWord
  build   : Byte → Instr

/-- The opcode map of R73, row by row. -/
def opcodeTable : List OpcodeRow :=
  [ ⟨0x00000001, 0xFFFFFFFF, fun _ => .crcInit⟩,
    ⟨0x00000002, 0xFFFF00FF, fun b => .crcByte b⟩,
    ⟨0x00000003, 0xFFFFFFFF, fun _ => .crcFbuf⟩,
    ⟨0x00000008, 0xFFFFFFFF, fun _ => .lrcInit⟩,
    ⟨0x00000009, 0xFFFF00FF, fun b => .lrcByte b⟩,
    ⟨0x0000000A, 0xFFFFFFFF, fun _ => .lrcFbuf⟩,
    ⟨0x00000010, 0xFFFFFFFF, fun _ => .rtuEncode⟩,
    ⟨0x00000011, 0xFFFFFFFF, fun _ => .rtuDecode⟩,
    ⟨0x00000020, 0xFFFFFFFF, fun _ => .asciiEncode⟩,
    ⟨0x00000021, 0xFFFFFFFF, fun _ => .asciiDecode⟩,
    ⟨0x000000FF, 0xFFFFFFFF, fun _ => .softReset⟩ ]

/-- The test of R73: `w & mask == match`. -/
def OpcodeRow.selects (r : OpcodeRow) (w : HostWord) : Bool := w &&& r.mask == r.pattern

/-- The ground on which a word that no row selects is illegal, in the order R72 lists them. The block does not
show which one it was (R211); the name is for the reader. -/
def illegalGround (w : HostWord) : IllegalWord :=
  if !(opcodeTable.any fun r => r.pattern == (opField w).zeroExtend 32) then .unassignedOpcode
  else if rsvField w != 0 then .reservedNotZero
  else .immediateNotZero

/-- The decoder, total on every 32-bit word: the command of the row that selects the word, or the ground on
which the word is illegal (R72, R73). -/
def decode (w : HostWord) : Except IllegalWord Instr :=
  match opcodeTable.find? (fun r => r.selects w) with
  | some r => .ok (r.build (immField w))
  | none => .error (illegalGround w)

/-- A word of OP `op` and IMM8 `imm8` with RSV 0 (R70). -/
def commandWord (op imm8 : Byte) : HostWord := 0#16 ++ imm8 ++ op

/-- The encoder: the word of a command (the column "match" of R73, with the operand in IMM8, R71). -/
def encode : Instr → HostWord
  | .crcInit => commandWord 0x01 0
  | .crcByte b => commandWord 0x02 b
  | .crcFbuf => commandWord 0x03 0
  | .lrcInit => commandWord 0x08 0
  | .lrcByte b => commandWord 0x09 b
  | .lrcFbuf => commandWord 0x0A 0
  | .rtuEncode => commandWord 0x10 0
  | .rtuDecode => commandWord 0x11 0
  | .asciiEncode => commandWord 0x20 0
  | .asciiDecode => commandWord 0x21 0
  | .softReset => commandWord 0xFF 0

/-- What the decoder reads from the `nbits` low bits of `w`, numbered as opcode_table.json numbers them. A
command word is one 32-bit write to CMD (R70), so there is no byte order to choose (20_memory.md R55). -/
def decodeTableWord (nbits w : Nat) : Option Instr :=
  if nbits ≤ 32 then
    match decode (BitVec.ofNat 32 (w % 2 ^ nbits)) with
    | .ok i => some i
    | .error _ => none
  else none

end Sys2Proof
end

