-- ==== Sys2Proof/Machine/Bytes.lean ====
section
/-!
DEFINITION. Bytes and words: the helpers of 00_scope.md R9 and R10 and the byte order of an RTU frame's CRC.
-/

namespace Sys2Proof.Machine

/-- `lo8(w) = w[7:0]` (R10). -/
def lo8 (w : Word) : Byte := w.extractLsb' 0 8

/-- `hi8(w) = w[15:8]` (R10). -/
def hi8 (w : Word) : Byte := w.extractLsb' 8 8

/-- `zext_16(b)` (R10). -/
def zext16 (b : Byte) : Word := b.zeroExtend 16

/-- The word whose low byte is `lo` and whose high byte is `hi`, as RTU_DECODE reads a frame's last two bytes
(41_rtu_codec.md R145): `zext_16(lo) | (zext_16(hi) << 8)`. -/
def le16 (lo hi : Byte) : Word := zext16 lo ||| (zext16 hi <<< 8)

/-- `s[i]` (R9). The rules index only inside a byte string, so the 0 beyond its end is never read (log 8). -/
def byteAt (s : List Byte) (i : Nat) : Byte := s.getD i 0

/-- `s[i:j]`, the bytes `i` to `j-1`, empty when `j <= i` (R9). -/
def slice (s : List Byte) (i j : Nat) : List Byte := (s.drop i).take (j - i)

end Sys2Proof.Machine
end

