-- ==== Sys2Proof/Machine/State.lean ====
section
/-!
DEFINITION. The block's state as plain data (10_state.md R20), its reset value (70_reset_and_hazards.md R260,
R261), and the reasons a step can stop.
-/

namespace Sys2Proof.Machine

/-- The contents of a byte buffer: (index, byte) pairs, indexes strictly rising (`Memory.wf`, Ops.lean). An
index that is not listed has not been written since power-on and holds no value: a read of it is a draw
(10_state.md R36). -/
abbrev Memory := List Host.Cell

/-- STATUS as its two fields (10_state.md R23): ERR is bits 3:0, EXCODE bits 15:8. The other bits read 0. -/
structure Status where
  err    : BitVec 4
  excode : Byte
  deriving DecidableEq, Repr

/-- The state of the block and, in the last three fields and `cfg`, the model's own.

CMD, LRC and CAPS are not here: CMD stores nothing (R22), LRC is computed from LSUM (R26), CAPS is constant
(R34). -/
structure State where
  /-- The parameters (R7, R50). Configuration, not state (R20): no step writes them (log 1). -/
  cfg    : Params
  /-- STATUS (R23). -/
  status : Status
  /-- CRC (R24). -/
  crc    : Word
  /-- LSUM (R25). -/
  lsum   : Byte
  /-- SLAVE (R27). -/
  slave  : Byte
  /-- FUNC (R28). -/
  func   : Byte
  /-- PLEN (R29). -/
  plen   : Word
  /-- FLEN (R30). -/
  flen   : Word
  /-- RXCHK (R33). -/
  rxchk  : Word
  /-- PBUF (R31): byte `i` is at window offset 0x1000 + i. -/
  pbuf   : Memory
  /-- FBUF (R32): byte `i` is at window offset 0x2000 + i. -/
  fbuf   : Memory
  /-- The number of the next free byte (R36; log 4). The model's own. -/
  draws  : Nat
  /-- The host's accesses still to be made, the next one first (20_memory.md R58; log 3). The model's own. -/
  hostProgram  : List HostAccess
  /-- The values the host's reads returned, the first one first (70 R269; log 3). The model's own. -/
  observations : List Observation
  deriving DecidableEq, Repr

/-- The state after power-on reset of a block with parameters `p` (R260 to R262): every register at its reset
value, no buffer byte written. DESIGN CHOICE (log 3, log 4): the model's own fields start at 0 and empty. -/
def State.resetWith (p : Params) : State where
  cfg := p
  status := { err := 0, excode := 0 }
  crc := 0xFFFF
  lsum := 0
  slave := 0
  func := 0
  plen := 0
  flen := 0
  rxchk := 0
  pbuf := []
  fbuf := []
  draws := 0
  hostProgram := []
  observations := []

/-- The state right after reset, with the spec's default sizes (R7). -/
def State.reset : State := State.resetWith Params.standard

/-- The reasons a step can stop the machine: none. "A raised error never stops, hangs or resets the block"
(60_exceptions.md R220): every error is recorded in STATUS and the machine goes on (R224, R227). -/
inductive Fault where
  deriving DecidableEq, Repr

/-- The reasons a step is given no meaning. No command raises one; the host port raises the five about host
accesses, each an access that 20_memory.md R53 says a model refuses. All are safe: a run that holds such an
access proves nothing. -/
inductive Refusal where
  /-- Raised by an arm of `exec` whose command has no meaning yet. No arm does. Safe. -/
  | notModelled (mnemonic : String)
  /-- Raised by the host port: the address is not in the window of R50. Safe. -/
  | outsideWindow (addr : Nat)
  /-- Raised by the host port: a register access that is not 32 bits, or a buffer access that is not 8 bits
  (R53; 93 U1). Safe. -/
  | accessWidth (offset : Nat)
  /-- Raised by the host port: a 32-bit access in the register range at an offset that is no multiple of 4
  (R53; 93 U2). Safe. -/
  | misalignedRegister (offset : Nat)
  /-- Raised by the host port: an access to a reserved offset (R50, R53; 93 U3). Safe. -/
  | reservedOffset (offset : Nat)
  /-- Raised by the host port: an access to a buffer index at or above the buffer's size (R53; 93 U3). Safe. -/
  | bufferIndex (buffer : Buffer) (index : Nat)
  deriving DecidableEq, Repr

end Sys2Proof.Machine
end

