-- ==== Sys2Proof/Machine/Flags.lean ====
section
/-!
DEFINITION. The block's error outcomes and how they stand in STATUS, its only flag register (10_state.md R23;
60_exceptions.md R221, R224).
-/

namespace Sys2Proof.Machine

/-- The errors a command of this command set can raise (R221). The two TCP kinds (codes 3 and 4) are never
raised and have no constructor. -/
inductive FrameError where
  | truncated
  | checksumMismatch
  | framingError
  | hexDecodeError
  /-- EXCEPTION_RESPONSE(code). -/
  | exceptionResponse (code : Byte)
  | overflow
  | illegalCommand
  deriving DecidableEq, Repr

/-- The code of an error in STATUS.ERR (R221). -/
def errCode : FrameError → BitVec 4
  | .truncated => 1
  | .checksumMismatch => 2
  | .framingError => 5
  | .hexDecodeError => 6
  | .exceptionResponse _ => 7
  | .overflow => 8
  | .illegalCommand => 9

/-- What an error leaves in STATUS.EXCODE: the exception code of EXCEPTION_RESPONSE(code), otherwise 0
(R221, R224). -/
def errExcode : FrameError → Byte
  | .exceptionResponse code => code
  | _ => 0

/-- STATUS after `raise FrameError(k)` (R224). -/
def errorStatus (k : FrameError) : Status := { err := errCode k, excode := errExcode k }

/-- STATUS after `succeed` (R224): 0x00000000. -/
def okStatus : Status := { err := 0, excode := 0 }

/-- STATUS as the host reads it (R23): bits 15:8 EXCODE, bits 3:0 ERR, bits 31:16 and 7:4 read 0. -/
def statusWord (st : Status) : HostWord := 0#16 ++ st.excode ++ 0#4 ++ st.err

end Sys2Proof.Machine
end

