-- ==== Sys2Proof/Machine/Ops.lean ====
section
/-!
DEFINITION. The operations the meanings share: reading and writing a buffer's bytes (10_state.md R31, R32, R36),
ending a command (`succeed` and `raise`, 00_scope.md R11, 60_exceptions.md R224), the register reset
(70_reset_and_hazards.md R261), and named updates of the state.
-/

namespace Sys2Proof.Machine

/-! ### Buffer memory -/

namespace Memory

/-- The indexes rise strictly from `lo` up. -/
def risesFrom (lo : Nat) : Memory → Bool
  | [] => true
  | (k, _) :: m => lo ≤ k && risesFrom (k + 1) m

/-- The canonical form: indexes strictly rising. An unlisted index holds no value, so no listed byte can equal
what an unlisted index reads as. -/
def wf (m : Memory) : Bool := risesFrom 0 m

/-- Every listed index is below `size`. -/
def below (size : Nat) (m : Memory) : Bool := m.all fun c => c.1 < size

/-- The byte last written at index `i` since power-on, if any. -/
def get? : Memory → Nat → Option Byte
  | [], _ => none
  | (k, b) :: m, i => if i = k then some b else get? m i

/-- Write byte `b` at index `i`, keeping the indexes in order. -/
def set : Memory → Nat → Byte → Memory
  | [], i, b => [(i, b)]
  | (k, c) :: m, i, b =>
      if i < k then (i, b) :: (k, c) :: m
      else if i = k then (i, b) :: m
      else (k, c) :: set m i b

/-- Write the bytes of `bs` at indexes `i`, `i + 1`, ... -/
def setAll : Memory → Nat → List Byte → Memory
  | m, _, [] => m
  | m, i, b :: bs => setAll (set m i b) (i + 1) bs

/-- Byte `i` as a read sees it: the byte written there, or, where nothing was written since power-on, the byte
of draw `d` (R36). -/
def read (m : Memory) (d i : Nat) : Byte := (m.get? i).getD (Config.freeByte d)

/-- The byte string of indexes 0 to `n - 1`, byte `i` with draw `d + i` where it was never written. A command
reads each byte of its operands once (log 5). -/
def readAll (m : Memory) (d n : Nat) : List Byte := (List.range n).map fun i => m.read (d + i) i

end Memory

/-! ### Named updates -/

namespace State

def setStatus (s : State) (st : Status) : State := { s with status := st }

def setCrc (s : State) (c : Word) : State := { s with crc := c }

def setLsum (s : State) (v : Byte) : State := { s with lsum := v }

def setRxchk (s : State) (v : Word) : State := { s with rxchk := v }

/-- Write SLAVE and FUNC, the decoded address and function code. -/
def setAddress (s : State) (slave func : Byte) : State := { s with slave := slave, func := func }

/-- `PBUF[0:len(p)] <- p` and `PLEN <- len(p)`: bytes from `len(p)` up are unchanged (R31). -/
def setPayload (s : State) (p : List Byte) : State :=
  { s with pbuf := s.pbuf.setAll 0 p, plen := BitVec.ofNat 16 p.length }

/-- `FBUF[0:len(f)] <- f` and `FLEN <- len(f)`: bytes from `len(f)` up are unchanged (R32). -/
def setFrame (s : State) (f : List Byte) : State :=
  { s with fbuf := s.fbuf.setAll 0 f, flen := BitVec.ofNat 16 f.length }

/-- Use up `n` draws. -/
def useDraws (s : State) (n : Nat) : State := { s with draws := s.draws + n }

/-- The host's remaining accesses are `rest`. -/
def setHostProgram (s : State) (rest : List HostAccess) : State := { s with hostProgram := rest }

/-- A host read returned `o`. -/
def observe (s : State) (o : Observation) : State := { s with observations := s.observations ++ [o] }

/-- `PBUF[0:n]` as the command that reads it sees it. The command then uses `n` draws. -/
def pbufBytes (s : State) (n : Nat) : List Byte := s.pbuf.readAll s.draws n

/-- `FBUF[0:n]` as the command that reads it sees it. The command then uses `n` draws. -/
def fbufBytes (s : State) (n : Nat) : List Byte := s.fbuf.readAll s.draws n

/-- The register reset of 70_reset_and_hazards.md R261: every register to its reset value; CAPS is constant, CMD
holds nothing, PBUF and FBUF are not touched. -/
def resetRegisters (s : State) : State :=
  { s with
    status := okStatus, crc := 0xFFFF, lsum := 0, slave := 0, func := 0, plen := 0, flen := 0, rxchk := 0 }

end State

/-! ### Ending a command -/

/-- `succeed`: STATUS.ERR <- 0 and STATUS.EXCODE <- 0 (R11, R224). -/
def succeed (s : State) : Host.Outcome State Fault Refusal := .next (s.setStatus okStatus)

/-- `raise FrameError(k)`: records the error in STATUS and writes no other state (R224). It is the block's whole
"exception entry": no state saved, no mode changed, no vector (R227). There is no return from it: the next
command overwrites STATUS (R228). The writes a command made before its `raise` are in `s`. -/
def raise (k : FrameError) (s : State) : Host.Outcome State Fault Refusal := .next (s.setStatus (errorStatus k))

/-- The end of both decoders, once the checksum has passed (41_rtu_codec.md R145, 42_ascii_codec.md R185; R91):
the exception test, then the test that the payload fits PBUF, then the decoded outputs. -/
def deliver (slave func : Byte) (payload : List Byte) (s : State) : Host.Outcome State Fault Refusal :=
  if func.getLsbD 7 then
    match payload with
    | [] => raise .truncated s
    | code :: _ => raise (.exceptionResponse code) (s.setAddress slave func)
  else if payload.length > s.cfg.pbufSize then raise .overflow s
  else succeed ((s.setAddress slave func).setPayload payload)

end Sys2Proof.Machine
end

