-- ==== Sys2Proof/Machine/Operands.lean ====
section
/-!
DEFINITION. The registers and buffers as the host names them: offsets, values read, effects of writes
(10_state.md R20 to R34; 20_memory.md R50 to R52).
-/

namespace Sys2Proof.Machine

/-- The two's complement of an 8-bit sum: `(256 - v) mod 256` (R26; 40_checksum.md R103). -/
def negate8 (v : Byte) : Byte := BitVec.ofNat 8 ((256 - v.toNat) % 256)

/-- A register's offset in the window (the table of R20). -/
def regOffset : Reg → Nat
  | .cmd => 0x000
  | .status => 0x004
  | .crc => 0x008
  | .lsum => 0x00C
  | .lrc => 0x010
  | .slave => 0x014
  | .func => 0x018
  | .plen => 0x01C
  | .flen => 0x020
  | .rxchk => 0x024
  | .caps => 0x028

/-- The register of slot `k`, the 4 bytes from offset `4 * k` (R50: one register per 4-byte slot from 0x000). -/
def regOfSlot : Nat → Option Reg
  | 0 => some .cmd
  | 1 => some .status
  | 2 => some .crc
  | 3 => some .lsum
  | 4 => some .lrc
  | 5 => some .slave
  | 6 => some .func
  | 7 => some .plen
  | 8 => some .flen
  | 9 => some .rxchk
  | 10 => some .caps
  | _ => none

/-- The first offset of a buffer (R50). -/
def bufferBase : Buffer → Nat
  | .pbuf => 0x1000
  | .fbuf => 0x2000

/-- A buffer's size (R7). -/
def bufferSize (p : Params) : Buffer → Nat
  | .pbuf => p.pbufSize
  | .fbuf => p.fbufSize

/-- CAPS (R34): bits 15:0 FBUF_SIZE, bits 31:16 PBUF_SIZE. -/
def capsWord (p : Params) : HostWord := BitVec.ofNat 16 p.pbufSize ++ BitVec.ofNat 16 p.fbufSize

namespace State

/-- LRC, computed from LSUM (R26). -/
def lrcReg (s : State) : Byte := negate8 s.lsum

/-- The 32-bit value a host read of a register returns (R22 to R34): the bits its rule names, the rest 0. -/
def readReg (s : State) : Reg → HostWord
  | .cmd => 0
  | .status => statusWord s.status
  | .crc => s.crc.zeroExtend 32
  | .lsum => s.lsum.zeroExtend 32
  | .lrc => s.lrcReg.zeroExtend 32
  | .slave => s.slave.zeroExtend 32
  | .func => s.func.zeroExtend 32
  | .plen => s.plen.zeroExtend 32
  | .flen => s.flen.zeroExtend 32
  | .rxchk => s.rxchk.zeroExtend 32
  | .caps => capsWord s.cfg

/-- A host write to a register (R51): a read/write register takes the bits its rule names and ignores the rest,
a read-only register ignores the write. CMD stores nothing (R22); the command the write starts is run by
`step`. -/
def writeReg (s : State) (v : HostWord) : Reg → State
  | .cmd => s
  | .status => s
  | .crc => { s with crc := v.truncate 16 }
  | .lsum => { s with lsum := v.truncate 8 }
  | .lrc => s
  | .slave => { s with slave := v.truncate 8 }
  | .func => { s with func := v.truncate 8 }
  | .plen => { s with plen := v.truncate 16 }
  | .flen => { s with flen := v.truncate 16 }
  | .rxchk => s
  | .caps => s

/-- The contents of a buffer. -/
def buffer (s : State) : Buffer → Memory
  | .pbuf => s.pbuf
  | .fbuf => s.fbuf

/-- The byte a host read of a buffer index returns (R52, R36). The read uses one draw. -/
def readByte (s : State) (b : Buffer) (i : Nat) : Byte := (s.buffer b).read s.draws i

/-- A host write of one byte to a buffer (R52). -/
def writeByte (s : State) (i : Nat) (v : Byte) : Buffer → State
  | .pbuf => { s with pbuf := s.pbuf.set i v }
  | .fbuf => { s with fbuf := s.fbuf.set i v }

end State

end Sys2Proof.Machine
end

