-- ==== Sys2Proof/Machine/ChecksumFunctions.lean ====
section
/-!
DEFINITION. The two checksums as pure functions (40_checksum.md R100, R101, R103).
-/

namespace Sys2Proof.Machine

/-- One round of R100: the register shifts right, and 0xA001 is XORed in when the bit shifted out is 1
(90_conflicts.md C1: 0xA001 is the constant of this right-shifting form). -/
def crcShift (c : Word) : Word := if c.getLsbD 0 then (c >>> 1) ^^^ 0xA001#16 else c >>> 1

/-- `crc_step(c, b)` (R100): the byte is XORed into the low 8 bits, then eight rounds. -/
def crcStep (c : Word) (b : Byte) : Word := Nat.repeat crcShift 8 (c ^^^ zext16 b)

/-- `crc_cont(c, s)`, the fold of `crc_step` over `s` from `c` (R102). -/
def crcCont (c : Word) (s : List Byte) : Word := s.foldl crcStep c

/-- `crc16(s)` (R101): from 0xFFFF, first byte to last, with no final step. -/
def crc16 (s : List Byte) : Word := crcCont 0xFFFF s

/-- `lsum(s)` (R103): the sum of the bytes modulo 256. -/
def lsum (s : List Byte) : Byte := s.foldl (fun acc b => acc + b) 0

/-- `lrc(s) = (256 - lsum(s)) mod 256` (R103). -/
def lrc (s : List Byte) : Byte := negate8 (lsum s)

end Sys2Proof.Machine
end

