-- ==== Sys2Proof/Machine/Ascii.lean ====
section
/-!
DEFINITION. Hex characters, the ASCII frame and its two commands (42_ascii_codec.md R170 to R173, R181, R185).
-/

namespace Sys2Proof.Machine

/-- `hexchar(v)` (R170): '0' to '9', then upper case 'A' to 'F'. -/
def hexChar (v : BitVec 4) : Byte :=
  if v.toNat ≤ 9 then 0x30 + v.zeroExtend 8 else 0x41 + (v.zeroExtend 8 - 10)

/-- `ishex(ch)` (R171): the 22 characters '0' to '9', 'A' to 'F', 'a' to 'f'. -/
def isHex (ch : Byte) : Bool :=
  (0x30 ≤ ch.toNat && ch.toNat ≤ 0x39) || (0x41 ≤ ch.toNat && ch.toNat ≤ 0x46)
    || (0x61 ≤ ch.toNat && ch.toNat ≤ 0x66)

/-- `hexval(ch)` for a hex character (R171). The decoder has tested `isHex` before it asks. -/
def hexVal (ch : Byte) : Byte :=
  if ch.toNat ≤ 0x39 then ch - 0x30 else if ch.toNat ≤ 0x46 then ch - 0x37 else ch - 0x57

/-- `hex2(b)` (R172): two characters, high nibble first. -/
def hex2 (b : Byte) : List Byte := [hexChar (b.extractLsb' 4 4), hexChar (b.extractLsb' 0 4)]

/-- `hex(s)` (R172): `hex2` of each byte in order. -/
def hexString (s : List Byte) : List Byte := s.flatMap hex2

/-- The bytes of a string of hex characters, two characters a byte (R172, R185). A character without a partner
gives no byte; the decoder has tested that there is none. -/
def hexBytes : List Byte → List Byte
  | c1 :: c2 :: rest => (hexVal c1 * 16 + hexVal c2) :: hexBytes rest
  | _ => []

/-- `ascii_frame(s, f, p)` (R173): ':', the hex characters of the body and its LRC, CR LF. The LRC is taken over
the binary bytes (R174). -/
def asciiFrame (slave func : Byte) (payload : List Byte) : List Byte :=
  let body := [slave, func] ++ payload
  [0x3A] ++ hexString (body ++ [lrc body]) ++ [0x0D, 0x0A]

/-- ASCII_ENCODE (R181). The frame is written to `FBUF[0:2*PLEN+9]`, FLEN is its length, LSUM the sum of its body. -/
def execAsciiEncode (s : State) : Host.Outcome State Fault Refusal :=
  let n := s.plen.toNat
  if n > s.cfg.pbufSize then raise .overflow s
  else if 2 * n + 9 > s.cfg.fbufSize then raise .overflow s
  else
    let payload := s.pbufBytes n
    succeed (((s.useDraws n).setFrame (asciiFrame s.slave s.func payload)).setLsum
      (lsum ([s.slave, s.func] ++ payload)))

/-- ASCII_DECODE once the characters are decoded (R185): `d` is the decoded bytes. -/
def asciiCheckBytes (d : List Byte) (s : State) : Host.Outcome State Fault Refusal :=
  let m := d.length
  if m < 3 then raise .truncated s
  else
    let body := slice d 0 (m - 1)
    let rx := byteAt d (m - 1)
    let kept := (s.setLsum (lsum body)).setRxchk (zext16 rx)
    if lrc body ≠ rx then raise .checksumMismatch kept
    else deliver (byteAt d 0) (byteAt d 1) (slice d 2 (m - 1)) kept

/-- ASCII_DECODE from its marker test on (R185), for a frame `f` of at least 3 characters. -/
def asciiCheckFrame (f : List Byte) (s : State) : Host.Outcome State Fault Refusal :=
  let n := f.length
  let chars := slice f 1 (n - 2)
  if byteAt f 0 ≠ 0x3A ∨ byteAt f (n - 2) ≠ 0x0D ∨ byteAt f (n - 1) ≠ 0x0A then raise .framingError s
  else if chars.all isHex = false then raise .hexDecodeError s
  else if chars.length % 2 = 1 then raise .hexDecodeError s
  else asciiCheckBytes (hexBytes chars) s

/-- ASCII_DECODE (R185): the length checks, then the frame. -/
def execAsciiDecode (s : State) : Host.Outcome State Fault Refusal :=
  let n := s.flen.toNat
  if n > s.cfg.fbufSize then raise .overflow s
  else if n < 3 then raise .framingError s
  else asciiCheckFrame (s.fbufBytes n) (s.useDraws n)

end Sys2Proof.Machine
end

