-- ==== Sys2Proof/Machine/Checksum.lean ====
section
/-!
DEFINITION. The checksum commands (40_checksum.md R104 to R106, R110 to R112).
-/

namespace Sys2Proof.Machine

/-- CRC_INIT (R104). -/
def execCrcInit (s : State) : Host.Outcome State Fault Refusal := succeed (s.setCrc 0xFFFF)

/-- CRC_BYTE (R105): starts from whatever CRC holds. -/
def execCrcByte (b : Byte) (s : State) : Host.Outcome State Fault Refusal := succeed (s.setCrc (crcStep s.crc b))

/-- CRC_FBUF (R106): from the initial value, whatever CRC holds. -/
def execCrcFbuf (s : State) : Host.Outcome State Fault Refusal :=
  let n := s.flen.toNat
  if n > s.cfg.fbufSize then raise .overflow s
  else succeed ((s.useDraws n).setCrc (crc16 (s.fbufBytes n)))

/-- LRC_INIT (R110). -/
def execLrcInit (s : State) : Host.Outcome State Fault Refusal := succeed (s.setLsum 0)

/-- LRC_BYTE (R111): the sum wraps modulo 256. -/
def execLrcByte (b : Byte) (s : State) : Host.Outcome State Fault Refusal := succeed (s.setLsum (s.lsum + b))

/-- LRC_FBUF (R112): the sum of the raw bytes of FBUF, from zero. -/
def execLrcFbuf (s : State) : Host.Outcome State Fault Refusal :=
  let n := s.flen.toNat
  if n > s.cfg.fbufSize then raise .overflow s
  else succeed ((s.useDraws n).setLsum (lsum (s.fbufBytes n)))

end Sys2Proof.Machine
end

