-- ==== Sys2Proof/Machine/Control.lean ====
section
/-!
DEFINITION. SOFT_RESET and illegal command words (43_control.md R210, R211).
-/

namespace Sys2Proof.Machine

/-- SOFT_RESET (R210): the register reset of 70_reset_and_hazards.md R261; STATUS is 0 afterwards, PBUF and FBUF
are not changed. -/
def execSoftReset (s : State) : Host.Outcome State Fault Refusal := succeed s.resetRegisters

/-- What an illegal command word does (R211): ILLEGAL_COMMAND in STATUS, nothing else. -/
def illegalCommand (s : State) : Host.Outcome State Fault Refusal := raise .illegalCommand s

end Sys2Proof.Machine
end

