-- ==== Sys2Proof/Machine/Rtu.lean ====
section
/-!
DEFINITION. The RTU frame and its two commands (41_rtu_codec.md R140, R141, R145).
-/

namespace Sys2Proof.Machine

/-- `rtu_frame(s, f, p)` (R140): address, function, payload, then the CRC16 of all of them, low byte first. -/
def rtuFrame (slave func : Byte) (payload : List Byte) : List Byte :=
  let body := [slave, func] ++ payload
  let c := crc16 body
  body ++ [lo8 c, hi8 c]

/-- RTU_ENCODE (R141). The frame is written to `FBUF[0:PLEN+4]`, FLEN is its length, CRC its checksum. -/
def execRtuEncode (s : State) : Host.Outcome State Fault Refusal :=
  let n := s.plen.toNat
  if n > s.cfg.pbufSize then raise .overflow s
  else if n + 4 > s.cfg.fbufSize then raise .overflow s
  else
    let payload := s.pbufBytes n
    succeed (((s.useDraws n).setFrame (rtuFrame s.slave s.func payload)).setCrc
      (crc16 ([s.slave, s.func] ++ payload)))

/-- RTU_DECODE from its checksum stage on (R145), for a frame `f` of at least 4 bytes. -/
def rtuCheckFrame (f : List Byte) (s : State) : Host.Outcome State Fault Refusal :=
  let n := f.length
  let c := crc16 (slice f 0 (n - 2))
  let rx := le16 (byteAt f (n - 2)) (byteAt f (n - 1))
  let kept := (s.setCrc c).setRxchk rx
  if c ≠ rx then raise .checksumMismatch kept
  else deliver (byteAt f 0) (byteAt f 1) (slice f 2 (n - 2)) kept

/-- RTU_DECODE (R145): the length checks, then the frame. -/
def execRtuDecode (s : State) : Host.Outcome State Fault Refusal :=
  let n := s.flen.toNat
  if n > s.cfg.fbufSize then raise .overflow s
  else if n < 4 then raise .truncated s
  else rtuCheckFrame (s.fbufBytes n) (s.useDraws n)

end Sys2Proof.Machine
end

