-- ==== Sys2Proof/Machine/Dispatch.lean ====
section
/-!
DEFINITION. One arm per command, in the order of the opcode map (30_encoding.md R73).
-/

namespace Sys2Proof.Machine

/-- What a command does to the block. -/
def exec (i : Instr) (s : State) : Host.Outcome State Fault Refusal :=
  match i with
  | .crcInit => Sys2Proof.Machine.execCrcInit s
  | .crcByte b => Sys2Proof.Machine.execCrcByte b s
  | .crcFbuf => Sys2Proof.Machine.execCrcFbuf s
  | .lrcInit => Sys2Proof.Machine.execLrcInit s
  | .lrcByte b => Sys2Proof.Machine.execLrcByte b s
  | .lrcFbuf => Sys2Proof.Machine.execLrcFbuf s
  | .rtuEncode => Sys2Proof.Machine.execRtuEncode s
  | .rtuDecode => Sys2Proof.Machine.execRtuDecode s
  | .asciiEncode => Sys2Proof.Machine.execAsciiEncode s
  | .asciiDecode => Sys2Proof.Machine.execAsciiDecode s
  | .softReset => Sys2Proof.Machine.execSoftReset s

end Sys2Proof.Machine
end

