-- ==== Sys2Proof/Machine/HostPort.lean ====
section
/-!
DEFINITION. The host port: which access reaches which register or buffer byte (20_memory.md R50 to R53), and what
an access other than a write to CMD does (R56).
-/

namespace Sys2Proof.Machine

/-- An access the port has accepted. -/
inductive Request where
  | readReg (r : Reg)
  | writeReg (r : Reg) (v : HostWord)
  | readByte (b : Buffer) (i : Nat)
  | writeByte (b : Buffer) (i : Nat) (v : Byte)
  deriving DecidableEq, Repr

/-- The number of byte offsets in the window (R50). -/
def windowSize : Nat := 0x4000

/-- The window offset of a host address (R50). -/
def windowOffset (p : Params) (addr : Nat) : Except Refusal Nat :=
  if addr < p.sfcBase ∨ p.sfcBase + windowSize ≤ addr then .error (.outsideWindow addr) else .ok (addr - p.sfcBase)

/-- The register at an offset, for an access of 32 bits (R51, R53). -/
def registerAt (off : Nat) : Except Refusal Reg :=
  if off ≤ 0x2B then
    if off % 4 = 0 then
      match regOfSlot (off / 4) with
      | some r => .ok r
      | none => .error (.reservedOffset off)
    else .error (.misalignedRegister off)
  else if 0x1000 ≤ off ∧ off < 0x3000 then .error (.accessWidth off)
  else .error (.reservedOffset off)

/-- The buffer and index at an offset, for an access of 8 bits (R52, R53). FBUF ends below offset 0x3000, because
FBUF_SIZE is at most 4096 (R7); from there up the window is reserved (R50). -/
def bufferByteAt (p : Params) (off : Nat) : Except Refusal (Buffer × Nat) :=
  if off ≤ 0x2B then .error (.accessWidth off)
  else if off < 0x1000 then .error (.reservedOffset off)
  else if off < 0x2000 then
    if off - 0x1000 < p.pbufSize then .ok (.pbuf, off - 0x1000) else .error (.bufferIndex .pbuf (off - 0x1000))
  else if off < 0x3000 then
    if off - 0x2000 < p.fbufSize then .ok (.fbuf, off - 0x2000) else .error (.bufferIndex .fbuf (off - 0x2000))
  else .error (.reservedOffset off)

/-- What an access asks for, or why the model refuses it (R51 to R53). -/
def request (p : Params) : HostAccess → Except Refusal Request
  | .read32 a => do
      let off ← windowOffset p a
      let r ← registerAt off
      pure (.readReg r)
  | .write32 a v => do
      let off ← windowOffset p a
      let r ← registerAt off
      pure (.writeReg r v)
  | .read8 a => do
      let off ← windowOffset p a
      let bi ← bufferByteAt p off
      pure (.readByte bi.1 bi.2)
  | .write8 a v => do
      let off ← windowOffset p a
      let bi ← bufferByteAt p off
      pure (.writeByte bi.1 bi.2 v)
  | .otherWidth _ a => do
      let off ← windowOffset p a
      .error (.accessWidth off)

/-- What an accepted access does (R51, R52, R56): a read returns a value and has no side effect, a write stores
its value. A write to CMD stores nothing (10_state.md R22). -/
def perform (s : State) : Request → State
  | .readReg r => s.observe (.word (s.readReg r))
  | .writeReg r v => s.writeReg v r
  | .readByte b i => (s.observe (.byte (s.readByte b i))).useDraws 1
  | .writeByte b i v => s.writeByte i v b

/-- The access that starts the command of word `w`: a 32-bit write of `w` to CMD, at offset 0 of the window
(10_state.md R22, 30_encoding.md R70). -/
def commandAccess (p : Params) (w : HostWord) : HostAccess := .write32 (p.sfcBase + regOffset .cmd) w

end Sys2Proof.Machine
end

