-- ==== Sys2Proof/Machine/Step.lean ====
section
/-!
DEFINITION. One step of the machine: the host's next access, and, when it is a write to CMD, the whole command it
starts (20_memory.md R56 to R58).
-/

namespace Sys2Proof.Machine

/-- Run the command of word `w` (10_state.md R22): the decoded command, or ILLEGAL_COMMAND (43_control.md R211). -/
def runCommandWord (w : HostWord) (s : State) : Host.Outcome State Fault Refusal :=
  match decode w with
  | .ok i => exec i s
  | .error _ => illegalCommand s

/-- One step: the host's next access (R58), with the command it starts (R57). With no access left the block is
idle and nothing changes: it never steps on its own (00_scope.md R6, 70_reset_and_hazards.md R262; log 6). -/
def step (s : State) : Host.Outcome State Fault Refusal :=
  match s.hostProgram with
  | [] => .next s
  | a :: rest =>
    match request s.cfg a with
    | .error r => .refused r
    | .ok (.writeReg .cmd w) => runCommandWord w (s.setHostProgram rest)
    | .ok q => .next (perform (s.setHostProgram rest) q)

/-- The state whose next step runs the command word in the `nbits` low bits of `w`: the host's next access is a
write of it to CMD (log 3). Nothing else is changed. -/
def State.withFetchWord (s : State) (nbits w : Nat) : State :=
  s.setHostProgram (commandAccess s.cfg (BitVec.ofNat 32 (w % 2 ^ nbits)) :: s.hostProgram)

end Sys2Proof.Machine
end

