-- ==== Sys2Proof/Safety.lean ====
section
/-!
DEFINITION. What a good state and a good run are, in the terms the statements use.
-/

namespace Sys2Proof.Machine

/-- STATUS as this command set leaves it: ERR is one of the codes R221 writes (never 3, 4 or 10 to 15), and EXCODE
is 0 unless ERR is 7 (10_state.md R23). -/
def statusLegal (st : Status) : Bool :=
  [0, 1, 2, 5, 6, 7, 8, 9].contains st.err.toNat && (st.err == 7 || st.excode == 0)

/-- The invariant of the machine: legal parameters (R7), each buffer in canonical form with no byte at or above
its size (R31, R32, R62), STATUS as R221 and R23 say it can be. -/
structure StateInv (s : State) : Prop where
  cfg_legal    : s.cfg.legal = true
  pbuf_wf      : s.pbuf.wf = true
  pbuf_below   : s.pbuf.below s.cfg.pbufSize = true
  fbuf_wf      : s.fbuf.wf = true
  fbuf_below   : s.fbuf.below s.cfg.fbufSize = true
  status_legal : statusLegal s.status = true

/-- Every access the host will still make is one the spec gives a meaning (20_memory.md R51, R52). -/
def HostSafe (s : State) : Prop := ∀ a ∈ s.hostProgram, a.wellFormed s.cfg = true

/-- Commands one after another, each from the state the last one left (20_memory.md R58). -/
def execAll : List Instr → State → Host.Outcome State Fault Refusal
  | [], s => .next s
  | i :: is, s =>
    match exec i s with
    | .next t => execAll is t
    | .fault r => .fault r
    | .refused r => .refused r

/-- Bytes `i`, `i + 1`, ... of a buffer were written and are `bs`. -/
def Memory.Holds (m : Memory) (i : Nat) (bs : List Byte) : Prop := ∀ k : Nat, k < bs.length → m.get? (i + k) = bs[k]?

/-- The accesses among `as` that are reads. -/
def readCount (as : List HostAccess) : Nat :=
  as.countP fun
    | .read32 _ | .read8 _ => true
    | _ => false

end Sys2Proof.Machine
end

