-- ==== Sys2Proof/Certificates/Slice0/Obligations.lean ====
section
/-!
DEFINITION. The statements for the provers. Each is a `def Obligations.<Name> : Prop`; OBLIGATIONS.json says which
rule each formalises. In them `⟨e, x⟩` as a value of `status` is STATUS with ERR `e` and EXCODE `x`
(10_state.md R23). `s.fbufBytes n` and `s.pbufBytes n` are FBUF[0:n] and PBUF[0:n] as a command reads them; what they
hold is `Obligations.OperandBytesAreWrittenOnesOrDraws`.
-/

open Sys2Proof Sys2Proof.Machine

/-! ### Command words -/

/-- The words of 30_encoding.md R73, written out from the column "match", decode to their commands; words with an
unassigned opcode, a nonzero RSV or a nonzero IMM8 without an immediate are illegal (95_test_vectors.md V81 to V83). -/
def Obligations.SpecWordsDecode : Prop :=
  (decode 0x00000001 = .ok .crcInit ∧ decode 0x00000102 = .ok (.crcByte 0x01) ∧
   decode 0x0000CD02 = .ok (.crcByte 0xCD) ∧ decode 0x00000003 = .ok .crcFbuf ∧
   decode 0x00000008 = .ok .lrcInit ∧ decode 0x00006B09 = .ok (.lrcByte 0x6B) ∧
   decode 0x0000000A = .ok .lrcFbuf ∧ decode 0x00000010 = .ok .rtuEncode ∧ decode 0x00000011 = .ok .rtuDecode ∧
   decode 0x00000020 = .ok .asciiEncode ∧ decode 0x00000021 = .ok .asciiDecode ∧
   decode 0x000000FF = .ok .softReset) ∧
  (decode 0x00000000 = .error .unassignedOpcode ∧ decode 0x00000004 = .error .unassignedOpcode ∧
   decode 0x00000012 = .error .unassignedOpcode ∧ decode 0x00000022 = .error .unassignedOpcode ∧
   decode 0x000000FE = .error .unassignedOpcode ∧ decode 0x00000101 = .error .immediateNotZero ∧
   decode 0x000001FF = .error .immediateNotZero ∧ decode 0x00000A0A = .error .immediateNotZero ∧
   decode 0x00010002 = .error .reservedNotZero)

/-- Decoding and encoding agree in both directions, over all 2^32 words and all commands with every IMM8. -/
def Obligations.DecodesExactlyTheEncodings : Prop :=
  ∀ (w : HostWord) (i : Instr), decode w = .ok i ↔ w = encode i

/-- The decoder's mask-and-match table (R73) rejects exactly the words R72 calls illegal: OP not assigned, RSV not 0, or
IMM8 not 0 for a command that takes no immediate. -/
def Obligations.IllegalWordsAreThoseOfTheThreeGrounds : Prop :=
  ∀ w : HostWord,
    let op := w.toNat % 256
    let imm8 := w.toNat / 256 % 256
    let rsv := w.toNat / 65536
    (∃ e, decode w = .error e) ↔
      (op ∉ opcodesWithImmediate ∧ op ∉ opcodesWithoutImmediate) ∨ rsv ≠ 0 ∨
        (imm8 ≠ 0 ∧ op ∉ opcodesWithImmediate)

/-! ### Steps -/

/-- A host write to CMD of a word that decodes to `i` runs exactly `i`, with that access used up (R22, R57). -/
def Obligations.StepRunsDecodedCommand : Prop :=
  ∀ (s : State) (w : HostWord) (i : Instr) (rest : List HostAccess),
    s.hostProgram = .write32 s.cfg.sfcBase w :: rest → decode w = .ok i →
    step s = exec i { s with hostProgram := rest }

/-- A host write to CMD of a word that R72 calls illegal changes nothing but STATUS: ILLEGAL_COMMAND (R211). -/
def Obligations.IllegalWordChangesOnlyStatus : Prop :=
  ∀ (s : State) (w : HostWord) (rest : List HostAccess),
    s.hostProgram = .write32 s.cfg.sfcBase w :: rest → commandWordLegal w = false →
    step s = .next { s with hostProgram := rest, status := ⟨9, 0⟩ }

/-- With no host access left nothing changes: the block never steps on its own (R6, R262). That an idle step answers
the same state is the model's choice (log 6). -/
def Obligations.IdleBlockStays : Prop := ∀ s : State, s.hostProgram = [] → step s = .next s

/-- A 32-bit read of a register at its offset returns its value, the bits its rule names and 0 elsewhere, and
changes nothing else (R22 to R34, R51, R56). CAPS needs sizes that fit 16 bits, which R7 gives. -/
def Obligations.RegisterReadReturnsItsValue : Prop :=
  ∀ (s : State) (off : Nat) (v : Nat) (rest : List HostAccess),
    s.cfg.legal = true →
    (off, v) ∈ [(0x000, 0), (0x004, s.status.excode.toNat * 256 + s.status.err.toNat), (0x008, s.crc.toNat),
      (0x00C, s.lsum.toNat), (0x010, (256 - s.lsum.toNat) % 256), (0x014, s.slave.toNat), (0x018, s.func.toNat),
      (0x01C, s.plen.toNat), (0x020, s.flen.toNat), (0x024, s.rxchk.toNat),
      (0x028, s.cfg.pbufSize * 65536 + s.cfg.fbufSize)] →
    s.hostProgram = .read32 (s.cfg.sfcBase + off) :: rest →
    step s = .next { s with
      hostProgram := rest, observations := s.observations ++ [.word (BitVec.ofNat 32 v)] }

/-- A 32-bit write to a register other than CMD: a read/write register takes the low bits its rule names, a
read-only register ignores the write, and nothing else changes (R51; R24, R25, R27 to R30; R23, R26, R33, R34). -/
def Obligations.RegisterWriteStoresItsBits : Prop :=
  ∀ (s : State) (off : Nat) (v : HostWord) (t : State) (rest : List HostAccess),
    (off, t) ∈ [(0x004, s), (0x008, { s with crc := BitVec.ofNat 16 v.toNat }),
      (0x00C, { s with lsum := BitVec.ofNat 8 v.toNat }), (0x010, s),
      (0x014, { s with slave := BitVec.ofNat 8 v.toNat }), (0x018, { s with func := BitVec.ofNat 8 v.toNat }),
      (0x01C, { s with plen := BitVec.ofNat 16 v.toNat }), (0x020, { s with flen := BitVec.ofNat 16 v.toNat }),
      (0x024, s), (0x028, s)] →
    s.hostProgram = .write32 (s.cfg.sfcBase + off) v :: rest →
    step s = .next { t with hostProgram := rest }

/-- A byte write to a buffer stores the byte at its index and changes no other byte of either buffer and no register
(R52, R31, R32). -/
def Obligations.BufferWriteStoresOneByte : Prop :=
  ∀ (s : State) (i : Nat) (b : Byte) (rest : List HostAccess), s.cfg.legal = true →
    (i < s.cfg.pbufSize → s.hostProgram = .write8 (s.cfg.sfcBase + 0x1000 + i) b :: rest →
      ∃ m : Memory, step s = .next { s with hostProgram := rest, pbuf := m } ∧
        m.get? i = some b ∧ ∀ j, j ≠ i → m.get? j = s.pbuf.get? j) ∧
    (i < s.cfg.fbufSize → s.hostProgram = .write8 (s.cfg.sfcBase + 0x2000 + i) b :: rest →
      ∃ m : Memory, step s = .next { s with hostProgram := rest, fbuf := m } ∧
        m.get? i = some b ∧ ∀ j, j ≠ i → m.get? j = s.fbuf.get? j)

/-- A byte read of a buffer returns the byte last written there, or the next draw where nothing was written since
power-on, and changes nothing else (R52, R36, R56). That the read uses one draw of the counter is the model's
(log 4). -/
def Obligations.BufferReadReturnsByteOrDraw : Prop :=
  ∀ (s : State) (i : Nat) (m : Memory) (base : Nat) (rest : List HostAccess),
    s.cfg.legal = true →
    (base = 0x1000 ∧ m = s.pbuf ∧ i < s.cfg.pbufSize ∨ base = 0x2000 ∧ m = s.fbuf ∧ i < s.cfg.fbufSize) →
    s.hostProgram = .read8 (s.cfg.sfcBase + base + i) :: rest →
    ∃ b : Byte, (∀ w, m.get? i = some w → b = w) ∧ (m.get? i = none → b = Config.freeByte s.draws) ∧
      step s = .next { s with
        hostProgram := rest, draws := s.draws + 1, observations := s.observations ++ [.byte b] }

/-- The byte string a command reads from a buffer: each byte written since power-on as it stands, each other byte a draw
(R36, R60). That each byte is read once, byte `i` with draw number `draws + i`, is the model's choice (log 5; log 4
for the counter). -/
def Obligations.OperandBytesAreWrittenOnesOrDraws : Prop :=
  ∀ (s : State) (n i : Nat), i < n →
    (s.fbufBytes n).length = n ∧ (s.pbufBytes n).length = n ∧
    (s.fbufBytes n)[i]? = some ((s.fbuf.get? i).getD (Config.freeByte (s.draws + i))) ∧
    (s.pbufBytes n)[i]? = some ((s.pbuf.get? i).getD (Config.freeByte (s.draws + i)))

/-- The model refuses exactly the accesses R53 names: all but a 32-bit access at a multiple of 4 inside 0x0000 to 0x002B
and an 8-bit access inside the PBUF or FBUF range (R51, R52). In particular no command refuses. That an address
outside the window is refused too is the model's choice (log 7); that no step faults is DEDUCED from R220 (log 9). -/
def Obligations.RefusesExactlyTheAccessesOutsideTheSpec : Prop :=
  ∀ (s : State) (a : HostAccess) (rest : List HostAccess),
    s.cfg.legal = true → s.hostProgram = a :: rest →
    ((∃ r, step s = .refused r) ↔ a.wellFormed s.cfg = false) ∧ (∀ r, step s ≠ .fault r)

/-- Every run of a host program whose accesses the spec gives a meaning ends after its last access, and each read
returned one value (R269). -/
def Obligations.EverySafeRunEnds : Prop :=
  ∀ s : State, s.cfg.legal = true → HostSafe s →
    ∃ t : State, Host.Core.run core s.hostProgram.length s = .next t ∧ t.hostProgram = [] ∧
      t.observations.length = s.observations.length + readCount s.hostProgram

/-- No host access but a write to CMD changes STATUS or RXCHK (R23, R33). -/
def Obligations.OnlyCommandsWriteStatusAndRxchk : Prop :=
  ∀ (s t : State) (a : HostAccess) (rest : List HostAccess),
    s.hostProgram = a :: rest → (∀ w, a ≠ .write32 s.cfg.sfcBase w) → step s = .next t →
    t.status = s.status ∧ t.rxchk = s.rxchk

/-! ### Reset and the invariant -/

/-- The state after power-on reset of a block with any parameters, as the host reads it (R260, R261), with no buffer
byte written, so that each is a draw (R36), and the block waiting for an access (R262); CAPS with the default sizes
is 0x00FC0201 (R34). That `hostProgram` is empty is the model's choice (log 3: the field is its own), and so are the
parameters of `State.reset` where R7 gives no default, the base address 0 (log 2). -/
def Obligations.ResetGivesTheResetValues : Prop :=
  (∀ p : Params, let s := State.resetWith p
    (s.readReg .cmd = 0 ∧ s.readReg .status = 0 ∧ s.readReg .crc = 0x0000FFFF ∧ s.readReg .lsum = 0 ∧
      s.readReg .lrc = 0 ∧ s.readReg .slave = 0 ∧ s.readReg .func = 0 ∧ s.readReg .plen = 0 ∧ s.readReg .flen = 0 ∧
      s.readReg .rxchk = 0) ∧
    (∀ i, s.pbuf.get? i = none ∧ s.fbuf.get? i = none) ∧ s.hostProgram = []) ∧
  State.reset = State.resetWith Params.standard ∧ State.reset.readReg .caps = 0x00FC0201

/-- The reset state of every block with legal parameters satisfies the invariant. -/
def Obligations.ResetSatisfiesInvariant : Prop :=
  StateInv State.reset ∧ ∀ p : Params, p.legal = true → StateInv (State.resetWith p)

/-- Every step, from every state that satisfies the invariant, keeps it: legal parameters, canonical buffers with no
byte at or above their sizes (R62), and STATUS as R221 and R23 allow. -/
def Obligations.StepKeepsInvariant : Prop := ∀ s t : State, StateInv s → step s = .next t → StateInv t

/-- No step changes the parameters: they are configuration, not state (R20), and CAPS is constant (R34). -/
def Obligations.StepKeepsParametersAndCaps : Prop :=
  ∀ s t : State, step s = .next t → t.cfg = s.cfg ∧ t.readReg .caps = s.readReg .caps

/-! ### The checksum functions -/

/-- The residue law of R102: a byte string followed by its CRC16, low byte first, has CRC16 0. -/
def Obligations.CrcOfStringWithItsCrcIsZero : Prop :=
  ∀ s : List Byte, crc16 (s ++ [lo8 (crc16 s), hi8 (crc16 s)]) = 0

/-- `crc_step` is linear over exclusive-or (R102). -/
def Obligations.CrcStepIsLinear : Prop :=
  ∀ (c₁ c₂ : Word) (b₁ b₂ : Byte), crcStep (c₁ ^^^ c₂) (b₁ ^^^ b₂) = crcStep c₁ b₁ ^^^ crcStep c₂ b₂

/-- The sum and the LRC of R103, by the integer sum of the bytes; the sum of a string and its LRC is 0 modulo 256;
the LRC is the one's complement plus 1. -/
def Obligations.LrcIsTheTwosComplementOfTheSum : Prop :=
  ∀ s : List Byte,
    (lsum s).toNat = (s.map BitVec.toNat).sum % 256 ∧
    (lrc s).toNat = (256 - (s.map BitVec.toNat).sum % 256) % 256 ∧
    lsum (s ++ [lrc s]) = 0 ∧ lrc s = (lsum s ^^^ 0xFF) + 1

/-! ### Checksum commands -/

/-- CRC_INIT (R104), word 0x00000001: CRC <- 0xFFFF, STATUS <- 0, nothing else. -/
def Obligations.CrcInitSetsInitialValue : Prop :=
  decode 0x00000001 = .ok .crcInit ∧
  ∀ s : State, exec .crcInit s = .next { s with crc := 0xFFFF, status := ⟨0, 0⟩ }

/-- CRC_BYTE b (R105, R100), word 0x00000002 + 256 * b: the byte is XORed into the low 8 bits and eight rounds of R100
follow; STATUS <- 0; nothing else changes. -/
def Obligations.CrcByteFeedsOneByte : Prop :=
  ∀ (s : State) (b : Byte), decode (BitVec.ofNat 32 (0x00000002 + 256 * b.toNat)) = .ok (.crcByte b) ∧
    let shift : Word → Word := fun c => if c.toNat % 2 = 1 then (c >>> 1) ^^^ 0xA001 else c >>> 1
    let c := s.crc ^^^ BitVec.ofNat 16 b.toNat
    exec (.crcByte b) s = .next { s with
      crc := shift (shift (shift (shift (shift (shift (shift (shift c))))))), status := ⟨0, 0⟩ }

/-- CRC_FBUF (R106), word 0x00000003: with FLEN above FBUF_SIZE, OVERFLOW and nothing else; else CRC <- crc16(FBUF[0:FLEN]) from the
initial value, whatever CRC held, STATUS <- 0, nothing else (`d` is the model's draw counter, log 5). -/
def Obligations.CrcFbufComputesFromInitialValue : Prop :=
  decode 0x00000003 = .ok .crcFbuf ∧
  ∀ s : State,
    (s.cfg.fbufSize < s.flen.toNat → exec .crcFbuf s = .next { s with status := ⟨8, 0⟩ }) ∧
    (s.flen.toNat ≤ s.cfg.fbufSize → ∃ d : Nat, exec .crcFbuf s = .next { s with
      crc := (s.fbufBytes s.flen.toNat).foldl crcStep 0xFFFF, status := ⟨0, 0⟩, draws := d })

/-- LRC_INIT (R110), word 0x00000008: LSUM <- 0, so LRC reads 0; STATUS <- 0; nothing else. -/
def Obligations.LrcInitClearsSum : Prop :=
  decode 0x00000008 = .ok .lrcInit ∧
  ∀ s : State, ∃ t : State, exec .lrcInit s = .next t ∧ t = { s with lsum := 0, status := ⟨0, 0⟩ } ∧
    t.readReg .lrc = 0

/-- LRC_BYTE b (R111), word 0x00000009 + 256 * b: LSUM <- (LSUM + b) mod 256; STATUS <- 0; nothing else. -/
def Obligations.LrcByteAddsOneByte : Prop :=
  ∀ (s : State) (b : Byte), decode (BitVec.ofNat 32 (0x00000009 + 256 * b.toNat)) = .ok (.lrcByte b) ∧
    exec (.lrcByte b) s = .next { s with
      lsum := BitVec.ofNat 8 ((s.lsum.toNat + b.toNat) % 256), status := ⟨0, 0⟩ }

/-- LRC_FBUF (R112), word 0x0000000A: with FLEN above FBUF_SIZE, OVERFLOW and nothing else; else LSUM <- the sum of the raw bytes from
zero, STATUS <- 0, nothing else (`d` is the model's draw counter, log 5). -/
def Obligations.LrcFbufSumsFromZero : Prop :=
  decode 0x0000000A = .ok .lrcFbuf ∧
  ∀ s : State,
    (s.cfg.fbufSize < s.flen.toNat → exec .lrcFbuf s = .next { s with status := ⟨8, 0⟩ }) ∧
    (s.flen.toNat ≤ s.cfg.fbufSize → ∃ d : Nat, exec .lrcFbuf s = .next { s with
      lsum := BitVec.ofNat 8 (((s.fbufBytes s.flen.toNat).map BitVec.toNat).sum % 256), status := ⟨0, 0⟩,
      draws := d })

/-- CRC_INIT and then CRC_BYTE for each byte of a string leave CRC = crc16 of it, the value CRC_FBUF leaves for FBUF
holding the string (R107). The value of `draws` afterwards is the model's choice (log 4, log 5). -/
def Obligations.StreamedCrcEqualsBufferedCrc : Prop :=
  ∀ (s : State) (bs : List Byte),
    execAll (.crcInit :: bs.map .crcByte) s = .next { s with crc := crc16 bs, status := ⟨0, 0⟩ } ∧
    (bs.length ≤ s.cfg.fbufSize → s.flen.toNat = bs.length → s.fbuf.Holds 0 bs →
      exec .crcFbuf s = .next { s with crc := crc16 bs, status := ⟨0, 0⟩, draws := s.draws + bs.length })

/-- LRC_INIT and then LRC_BYTE for each byte of a string leave LSUM = lsum of it, the value LRC_FBUF leaves for FBUF
holding the string, and the LRC register reads its lrc (R113). The value of `draws` afterwards is the model's choice
(log 4, log 5). -/
def Obligations.StreamedLrcEqualsBufferedLrc : Prop :=
  ∀ (s : State) (bs : List Byte),
    execAll (.lrcInit :: bs.map .lrcByte) s = .next { s with lsum := lsum bs, status := ⟨0, 0⟩ } ∧
    (∀ t : State, t.lsum = lsum bs → t.readReg .lrc = BitVec.ofNat 32 (lrc bs).toNat) ∧
    (bs.length ≤ s.cfg.fbufSize → s.flen.toNat = bs.length → s.fbuf.Holds 0 bs →
      exec .lrcFbuf s = .next { s with lsum := lsum bs, status := ⟨0, 0⟩, draws := s.draws + bs.length })

/-! ### The RTU codec -/

/-- RTU_ENCODE (R141, R140), word 0x00000010: PLEN above PBUF_SIZE or a frame longer than FBUF_SIZE (which legal parameters rule out),
OVERFLOW and nothing else; else FBUF[0:PLEN+4] <- address, function, payload, CRC low byte, CRC high byte; FLEN <-
PLEN + 4; CRC <- the checksum; STATUS <- 0; FBUF from PLEN + 4 up and everything else is unchanged. Any SLAVE and FUNC
are framed. (`d` is the model's draw counter, log 5.) -/
def Obligations.RtuEncodeBuildsFrame : Prop :=
  decode 0x00000010 = .ok .rtuEncode ∧
  ∀ s : State,
    (s.cfg.pbufSize < s.plen.toNat ∨ s.cfg.fbufSize < s.plen.toNat + 4 →
      exec .rtuEncode s = .next { s with status := ⟨8, 0⟩ }) ∧
    let n := s.plen.toNat
    let p := s.pbufBytes n
    let c := crc16 (s.slave :: s.func :: p)
    (s.cfg.legal = true → n ≤ s.cfg.pbufSize → ∃ (m : Memory) (d : Nat),
      exec .rtuEncode s = .next { s with
        fbuf := m, flen := BitVec.ofNat 16 (n + 4), crc := c, status := ⟨0, 0⟩, draws := d } ∧
      m.get? 0 = some s.slave ∧ m.get? 1 = some s.func ∧ (∀ i : Nat, i < n → m.get? (2 + i) = p[i]?) ∧
      m.get? (n + 2) = some (BitVec.ofNat 8 (c.toNat % 256)) ∧
      m.get? (n + 3) = some (BitVec.ofNat 8 (c.toNat / 256)) ∧
      ∀ j : Nat, n + 4 ≤ j → m.get? j = s.fbuf.get? j)

/-- After a successful RTU_ENCODE the frame in FBUF has length FLEN = PLEN + 4 and CRC16 0, and encoding again writes
the same bytes when the payload was written by the host (R142). -/
def Obligations.RtuEncodedFrameHasZeroCrcAndRepeats : Prop :=
  ∀ (s : State) (p : List Byte), s.cfg.legal = true → s.plen.toNat = p.length → p.length ≤ s.cfg.pbufSize →
    s.pbuf.Holds 0 p →
    ∃ t u : State, exec .rtuEncode s = .next t ∧ exec .rtuEncode t = .next u ∧
      t.flen.toNat = p.length + 4 ∧ t.fbufBytes t.flen.toNat = rtuFrame s.slave s.func p ∧
      crc16 (t.fbufBytes t.flen.toNat) = 0 ∧
      u.flen = t.flen ∧ u.crc = t.crc ∧ u.status = t.status ∧ ∀ i, u.fbuf.get? i = t.fbuf.get? i

/-- RTU_DECODE stopped by its length checks, in their order (R145): OVERFLOW above FBUF_SIZE, else TRUNCATED below
4 bytes; nothing but STATUS is written. -/
def Obligations.RtuDecodeLengthErrors : Prop :=
  ∀ s : State,
    (s.cfg.fbufSize < s.flen.toNat → exec .rtuDecode s = .next { s with status := ⟨8, 0⟩ }) ∧
    (s.flen.toNat ≤ s.cfg.fbufSize → s.flen.toNat < 4 → exec .rtuDecode s = .next { s with status := ⟨1, 0⟩ })

/-- RTU_DECODE of a frame whose computed CRC differs from its last two bytes read low byte first: CHECKSUM_MISMATCH,
with CRC and RXCHK kept and no decoded output written (R145). The value of `draws` afterwards, and that an unwritten
byte of the frame has one value within the command, are the model's choice (log 4, log 5). -/
def Obligations.RtuDecodeChecksumMismatch : Prop :=
  ∀ (s : State) (a f lo hi : Byte) (p : List Byte),
    s.flen.toNat = p.length + 4 → s.flen.toNat ≤ s.cfg.fbufSize →
    s.fbufBytes s.flen.toNat = a :: f :: (p ++ [lo, hi]) →
    (crc16 (a :: f :: p)).toNat ≠ lo.toNat + 256 * hi.toNat →
    exec .rtuDecode s = .next { s with
      crc := crc16 (a :: f :: p), rxchk := BitVec.ofNat 16 (lo.toNat + 256 * hi.toNat), status := ⟨2, 0⟩,
      draws := s.draws + s.flen.toNat }

/-- RTU_DECODE of an exception response with a correct checksum (R145, R91): no payload byte, TRUNCATED; else
EXCEPTION_RESPONSE with the first payload byte in EXCODE and SLAVE and FUNC written; PLEN and PBUF never. The value
of `draws` afterwards, and that an unwritten byte of the frame has one value within the command, are the model's
choice (log 4, log 5). -/
def Obligations.RtuDecodeExceptionResponse : Prop :=
  ∀ (s : State) (a f lo hi : Byte) (p : List Byte),
    s.flen.toNat = p.length + 4 → s.flen.toNat ≤ s.cfg.fbufSize →
    s.fbufBytes s.flen.toNat = a :: f :: (p ++ [lo, hi]) →
    (crc16 (a :: f :: p)).toNat = lo.toNat + 256 * hi.toNat → 128 ≤ f.toNat →
    (p = [] → exec .rtuDecode s = .next { s with
      crc := crc16 (a :: f :: p), rxchk := crc16 (a :: f :: p), status := ⟨1, 0⟩,
      draws := s.draws + s.flen.toNat }) ∧
    (∀ (code : Byte) (more : List Byte), p = code :: more → exec .rtuDecode s = .next { s with
      crc := crc16 (a :: f :: p), rxchk := crc16 (a :: f :: p), slave := a, func := f, status := ⟨7, code⟩,
      draws := s.draws + s.flen.toNat })

/-- RTU_DECODE of a normal frame with a correct checksum whose payload is longer than PBUF: OVERFLOW, with CRC and RXCHK
kept and no decoded output written (R145). The value of `draws` afterwards, and that an unwritten byte of the frame
has one value within the command, are the model's choice (log 4, log 5). -/
def Obligations.RtuDecodePayloadOverflow : Prop :=
  ∀ (s : State) (a f lo hi : Byte) (p : List Byte),
    s.flen.toNat = p.length + 4 → s.flen.toNat ≤ s.cfg.fbufSize →
    s.fbufBytes s.flen.toNat = a :: f :: (p ++ [lo, hi]) →
    (crc16 (a :: f :: p)).toNat = lo.toNat + 256 * hi.toNat → f.toNat < 128 → s.cfg.pbufSize < p.length →
    exec .rtuDecode s = .next { s with
      crc := crc16 (a :: f :: p), rxchk := crc16 (a :: f :: p), status := ⟨8, 0⟩,
      draws := s.draws + s.flen.toNat }

/-- RTU_DECODE of a normal frame with a correct checksum whose payload fits (R145): SLAVE, FUNC, PLEN and PBUF[0:m] are
the decoded parts, CRC and RXCHK the checksum, STATUS 0; PBUF from m up, FBUF and everything else is unchanged. The
value of `draws` afterwards, and that an unwritten byte of the frame has one value within the command, are the
model's choice (log 4, log 5). -/
def Obligations.RtuDecodeUnpacksFrame : Prop :=
  ∀ (s : State) (a f lo hi : Byte) (p : List Byte),
    s.flen.toNat = p.length + 4 → s.flen.toNat ≤ s.cfg.fbufSize →
    s.fbufBytes s.flen.toNat = a :: f :: (p ++ [lo, hi]) →
    (crc16 (a :: f :: p)).toNat = lo.toNat + 256 * hi.toNat → f.toNat < 128 → p.length ≤ s.cfg.pbufSize →
    ∃ m : Memory,
      exec .rtuDecode s = .next { s with
        crc := crc16 (a :: f :: p), rxchk := crc16 (a :: f :: p), slave := a, func := f, pbuf := m,
        plen := BitVec.ofNat 16 p.length, status := ⟨0, 0⟩, draws := s.draws + s.flen.toNat } ∧
      m.Holds 0 p ∧ ∀ j : Nat, p.length ≤ j → m.get? j = s.pbuf.get? j

/-- RTU_ENCODE followed at once by RTU_DECODE (R146): with FUNC[7] = 0 both succeed and give SLAVE, FUNC, PLEN and PBUF
back, with CRC = RXCHK; with FUNC[7] = 1 the decode raises EXCEPTION_RESPONSE of the first payload byte, or
TRUNCATED when there is none. A payload byte the host never wrote is a draw, and comes back as the drawn byte. That
the encoder reads such a byte once is the model's choice (log 5). -/
def Obligations.RtuRoundTrip : Prop :=
  ∀ s : State, s.cfg.legal = true → s.plen.toNat ≤ s.cfg.pbufSize →
    let n := s.plen.toNat
    let p := s.pbufBytes n
    let c := crc16 (s.slave :: s.func :: p)
    ∃ t u : State, exec .rtuEncode s = .next t ∧ exec .rtuDecode t = .next u ∧ t.status = ⟨0, 0⟩ ∧
      u.plen = s.plen ∧ u.slave = s.slave ∧ u.func = s.func ∧ u.crc = c ∧ u.rxchk = c ∧
      (s.func.getLsbD 7 = false → u.status = ⟨0, 0⟩ ∧ u.pbuf.Holds 0 p ∧
        ∀ (i : Nat) (b : Byte), s.pbuf.get? i = some b → u.pbuf.get? i = some b) ∧
      (s.func.getLsbD 7 = true → u.pbuf = s.pbuf ∧ (n = 0 → u.status = ⟨1, 0⟩) ∧
        ∀ code : Byte, p[0]? = some code → u.status = ⟨7, code⟩)

/-- A frame of RTU_ENCODE's form with one of its two CRC bytes replaced by a different byte is CHECKSUM_MISMATCH, and no
decoded output is written (R147). That an unwritten byte of the frame has one value within the command is the
model's choice (log 5). -/
def Obligations.RtuCorruptedCrcByteIsDetected : Prop :=
  ∀ (s : State) (a f b : Byte) (p : List Byte) (k : Nat),
    s.flen.toNat = p.length + 4 → s.flen.toNat ≤ s.cfg.fbufSize → (k = p.length + 2 ∨ k = p.length + 3) →
    s.fbufBytes s.flen.toNat = (rtuFrame a f p).set k b → (rtuFrame a f p)[k]? ≠ some b →
    ∃ t : State, exec .rtuDecode s = .next t ∧ t.status = ⟨2, 0⟩ ∧ t.slave = s.slave ∧ t.func = s.func ∧
      t.plen = s.plen ∧ t.pbuf = s.pbuf

/-- A frame of RTU_ENCODE's form with any one byte before its CRC (address, function or payload) replaced by a different
byte is CHECKSUM_MISMATCH, and no decoded output is written (R148). That an unwritten byte of the frame has one
value within the command is the model's choice (log 5). -/
def Obligations.RtuSingleByteChangeIsDetected : Prop :=
  ∀ (s : State) (a f b : Byte) (p : List Byte) (k : Nat),
    s.flen.toNat = p.length + 4 → s.flen.toNat ≤ s.cfg.fbufSize → k < p.length + 2 →
    s.fbufBytes s.flen.toNat = (rtuFrame a f p).set k b → (rtuFrame a f p)[k]? ≠ some b →
    ∃ t : State, exec .rtuDecode s = .next t ∧ t.status = ⟨2, 0⟩ ∧ t.slave = s.slave ∧ t.func = s.func ∧
      t.plen = s.plen ∧ t.pbuf = s.pbuf

/-! ### The ASCII codec -/

/-- The hex characters (R170, R171): exactly the 22 of the list are hex characters, with the values R171 gives, and
the encoder writes '0' to '9' and 'A' to 'F'. -/
def Obligations.HexCharactersAndValues : Prop :=
  (∀ ch : Byte, isHex ch = true ↔
    (0x30 ≤ ch.toNat ∧ ch.toNat ≤ 0x39) ∨ (0x41 ≤ ch.toNat ∧ ch.toNat ≤ 0x46) ∨
      (0x61 ≤ ch.toNat ∧ ch.toNat ≤ 0x66)) ∧
  (∀ ch : Byte, (0x30 ≤ ch.toNat ∧ ch.toNat ≤ 0x39 → (hexVal ch).toNat + 0x30 = ch.toNat) ∧
    (0x41 ≤ ch.toNat ∧ ch.toNat ≤ 0x46 → (hexVal ch).toNat + 0x37 = ch.toNat) ∧
    (0x61 ≤ ch.toNat ∧ ch.toNat ≤ 0x66 → (hexVal ch).toNat + 0x57 = ch.toNat)) ∧
  (∀ v : BitVec 4, (v.toNat ≤ 9 → (hexChar v).toNat = 0x30 + v.toNat) ∧
    (10 ≤ v.toNat → (hexChar v).toNat = 0x41 + (v.toNat - 10)))

/-- `hex` writes two characters a byte, high nibble first, in the order of the bytes; two hex characters decode to
`hexval(c1) * 16 + hexval(c2)`, in either case; so decoding undoes encoding, which writes only hex characters (R172). -/
def Obligations.HexStringDecodesBack : Prop :=
  (∀ (c₁ c₂ : Byte) (rest : List Byte), isHex c₁ = true → isHex c₂ = true →
    hexBytes (c₁ :: c₂ :: rest) = BitVec.ofNat 8 ((hexVal c₁).toNat * 16 + (hexVal c₂).toNat) :: hexBytes rest) ∧
  ∀ bs : List Byte,
    hexBytes (hexString bs) = bs ∧ (hexString bs).all isHex = true ∧ (hexString bs).length = 2 * bs.length ∧
    ∀ (j : Nat) (b : Byte), bs[j]? = some b →
      (hexString bs)[2 * j]? = some (hexChar (BitVec.ofNat 4 (b.toNat / 16))) ∧
      (hexString bs)[2 * j + 1]? = some (hexChar (BitVec.ofNat 4 (b.toNat % 16)))

/-- ASCII_ENCODE (R181, R173, R174), word 0x00000020: PLEN above PBUF_SIZE or a frame longer than FBUF_SIZE, OVERFLOW and nothing else;
else ':' , the hex characters of address, function, payload and LRC, CR, LF; FLEN <- 2 * PLEN + 9; LSUM <- the sum of
the body, so LRC reads the LRC; STATUS <- 0; FBUF from the new FLEN up and everything else is unchanged. (`d` is the
model's draw counter, log 5.) -/
def Obligations.AsciiEncodeBuildsFrame : Prop :=
  decode 0x00000020 = .ok .asciiEncode ∧
  ∀ s : State,
    (s.cfg.pbufSize < s.plen.toNat ∨ s.cfg.fbufSize < 2 * s.plen.toNat + 9 →
      exec .asciiEncode s = .next { s with status := ⟨8, 0⟩ }) ∧
    let n := s.plen.toNat
    let body := s.slave :: s.func :: s.pbufBytes n
    let bytes := body ++ [lrc body]
    (s.cfg.legal = true → n ≤ s.cfg.pbufSize → 2 * n + 9 ≤ s.cfg.fbufSize → ∃ (m : Memory) (d : Nat),
      exec .asciiEncode s = .next { s with
        fbuf := m, flen := BitVec.ofNat 16 (2 * n + 9), lsum := lsum body, status := ⟨0, 0⟩, draws := d } ∧
      m.get? 0 = some 0x3A ∧
      (∀ (j : Nat) (b : Byte), bytes[j]? = some b →
        m.get? (1 + 2 * j) = some (hexChar (BitVec.ofNat 4 (b.toNat / 16))) ∧
        m.get? (2 + 2 * j) = some (hexChar (BitVec.ofNat 4 (b.toNat % 16)))) ∧
      m.get? (2 * n + 7) = some 0x0D ∧ m.get? (2 * n + 8) = some 0x0A ∧
      ∀ j : Nat, 2 * n + 9 ≤ j → m.get? j = s.fbuf.get? j)

/-- ASCII_DECODE stopped before its characters are read as hex, in the order of R185: OVERFLOW above FBUF_SIZE, else
FRAMING_ERROR below 3 characters or without ':' first and CR LF last; nothing but STATUS is written (the markers are
read, which uses draws: log 5). -/
def Obligations.AsciiDecodeLengthAndFramingErrors : Prop :=
  ∀ s : State,
    (s.cfg.fbufSize < s.flen.toNat → exec .asciiDecode s = .next { s with status := ⟨8, 0⟩ }) ∧
    (s.flen.toNat ≤ s.cfg.fbufSize → s.flen.toNat < 3 → exec .asciiDecode s = .next { s with status := ⟨5, 0⟩ }) ∧
    (s.flen.toNat ≤ s.cfg.fbufSize → 3 ≤ s.flen.toNat →
      (∀ mid, s.fbufBytes s.flen.toNat ≠ 0x3A :: (mid ++ [0x0D, 0x0A])) →
      exec .asciiDecode s = .next { s with status := ⟨5, 0⟩, draws := s.draws + s.flen.toNat })

/-- ASCII_DECODE of a marked frame stopped before its checksum, in the order of R185: HEX_DECODE_ERROR for a non-hex
character or an odd number of characters, else TRUNCATED below 3 decoded bytes; nothing of the block's state but
STATUS is written. The value of `draws` afterwards, and that an unwritten byte of the frame has one value within the
command, are the model's choice (log 4, log 5). -/
def Obligations.AsciiDecodeHexErrorsAndTruncation : Prop :=
  ∀ (s : State) (mid : List Byte),
    s.flen.toNat = mid.length + 3 → s.flen.toNat ≤ s.cfg.fbufSize →
    s.fbufBytes s.flen.toNat = 0x3A :: (mid ++ [0x0D, 0x0A]) →
    ((∃ ch ∈ mid, isHex ch = false) ∨ mid.length % 2 = 1 →
      exec .asciiDecode s = .next { s with status := ⟨6, 0⟩, draws := s.draws + s.flen.toNat }) ∧
    ((∀ ch ∈ mid, isHex ch = true) → mid.length % 2 = 0 → mid.length < 6 →
      exec .asciiDecode s = .next { s with status := ⟨1, 0⟩, draws := s.draws + s.flen.toNat })

/-- ASCII_DECODE of a marked frame of hex characters whose computed LRC differs from its last byte: CHECKSUM_MISMATCH,
with LSUM and RXCHK kept and no decoded output written (R185). The value of `draws` afterwards, and that an
unwritten byte of the frame has one value within the command, are the model's choice (log 4, log 5). -/
def Obligations.AsciiDecodeChecksumMismatch : Prop :=
  ∀ (s : State) (mid : List Byte) (a f l : Byte) (p : List Byte),
    s.flen.toNat = mid.length + 3 → s.flen.toNat ≤ s.cfg.fbufSize →
    s.fbufBytes s.flen.toNat = 0x3A :: (mid ++ [0x0D, 0x0A]) →
    (∀ ch ∈ mid, isHex ch = true) → mid.length % 2 = 0 → hexBytes mid = a :: f :: (p ++ [l]) →
    lrc (a :: f :: p) ≠ l →
    exec .asciiDecode s = .next { s with
      lsum := lsum (a :: f :: p), rxchk := BitVec.ofNat 16 l.toNat, status := ⟨2, 0⟩,
      draws := s.draws + s.flen.toNat }

/-- ASCII_DECODE of an exception response with a correct LRC (R185, R91): no payload byte, TRUNCATED; else
EXCEPTION_RESPONSE with the first payload byte in EXCODE and SLAVE and FUNC written; PLEN and PBUF never. The value
of `draws` afterwards, and that an unwritten byte of the frame has one value within the command, are the model's
choice (log 4, log 5). -/
def Obligations.AsciiDecodeExceptionResponse : Prop :=
  ∀ (s : State) (mid : List Byte) (a f l : Byte) (p : List Byte),
    s.flen.toNat = mid.length + 3 → s.flen.toNat ≤ s.cfg.fbufSize →
    s.fbufBytes s.flen.toNat = 0x3A :: (mid ++ [0x0D, 0x0A]) →
    (∀ ch ∈ mid, isHex ch = true) → mid.length % 2 = 0 → hexBytes mid = a :: f :: (p ++ [l]) →
    lrc (a :: f :: p) = l → 128 ≤ f.toNat →
    (p = [] → exec .asciiDecode s = .next { s with
      lsum := lsum (a :: f :: p), rxchk := BitVec.ofNat 16 l.toNat, status := ⟨1, 0⟩,
      draws := s.draws + s.flen.toNat }) ∧
    (∀ (code : Byte) (more : List Byte), p = code :: more → exec .asciiDecode s = .next { s with
      lsum := lsum (a :: f :: p), rxchk := BitVec.ofNat 16 l.toNat, slave := a, func := f, status := ⟨7, code⟩,
      draws := s.draws + s.flen.toNat })

/-- ASCII_DECODE of a normal frame with a correct LRC whose payload is longer than PBUF: OVERFLOW, with LSUM and RXCHK
kept and no decoded output written (R185). The value of `draws` afterwards, and that an unwritten byte of the frame
has one value within the command, are the model's choice (log 4, log 5). -/
def Obligations.AsciiDecodePayloadOverflow : Prop :=
  ∀ (s : State) (mid : List Byte) (a f l : Byte) (p : List Byte),
    s.flen.toNat = mid.length + 3 → s.flen.toNat ≤ s.cfg.fbufSize →
    s.fbufBytes s.flen.toNat = 0x3A :: (mid ++ [0x0D, 0x0A]) →
    (∀ ch ∈ mid, isHex ch = true) → mid.length % 2 = 0 → hexBytes mid = a :: f :: (p ++ [l]) →
    lrc (a :: f :: p) = l → f.toNat < 128 → s.cfg.pbufSize < p.length →
    exec .asciiDecode s = .next { s with
      lsum := lsum (a :: f :: p), rxchk := BitVec.ofNat 16 l.toNat, status := ⟨8, 0⟩,
      draws := s.draws + s.flen.toNat }

/-- ASCII_DECODE of a normal frame with a correct LRC whose payload fits (R185), in either letter case: SLAVE, FUNC,
PLEN and PBUF[0:p] are the decoded parts, LSUM the sum, RXCHK the received LRC, STATUS 0; PBUF from p up, FBUF and
everything else is unchanged. The value of `draws` afterwards, and that an unwritten byte of the frame has one value
within the command, are the model's choice (log 4, log 5). -/
def Obligations.AsciiDecodeUnpacksFrame : Prop :=
  ∀ (s : State) (mid : List Byte) (a f l : Byte) (p : List Byte),
    s.flen.toNat = mid.length + 3 → s.flen.toNat ≤ s.cfg.fbufSize →
    s.fbufBytes s.flen.toNat = 0x3A :: (mid ++ [0x0D, 0x0A]) →
    (∀ ch ∈ mid, isHex ch = true) → mid.length % 2 = 0 → hexBytes mid = a :: f :: (p ++ [l]) →
    lrc (a :: f :: p) = l → f.toNat < 128 → p.length ≤ s.cfg.pbufSize →
    ∃ m : Memory,
      exec .asciiDecode s = .next { s with
        lsum := lsum (a :: f :: p), rxchk := BitVec.ofNat 16 l.toNat, slave := a, func := f, pbuf := m,
        plen := BitVec.ofNat 16 p.length, status := ⟨0, 0⟩, draws := s.draws + s.flen.toNat } ∧
      m.Holds 0 p ∧ ∀ j : Nat, p.length ≤ j → m.get? j = s.pbuf.get? j

/-- ASCII_ENCODE followed at once by ASCII_DECODE (R186): with FUNC[7] = 0 both succeed and give SLAVE, FUNC, PLEN and
PBUF back, with LSUM the sum of the body; with FUNC[7] = 1 the decode raises EXCEPTION_RESPONSE or TRUNCATED. A
payload byte the host never wrote is a draw, and comes back as the drawn byte. That the encoder reads such a byte
once is the model's choice (log 5). -/
def Obligations.AsciiRoundTrip : Prop :=
  ∀ s : State, s.cfg.legal = true → s.plen.toNat ≤ s.cfg.pbufSize → 2 * s.plen.toNat + 9 ≤ s.cfg.fbufSize →
    let n := s.plen.toNat
    let p := s.pbufBytes n
    ∃ t u : State, exec .asciiEncode s = .next t ∧ exec .asciiDecode t = .next u ∧ t.status = ⟨0, 0⟩ ∧
      u.plen = s.plen ∧ u.slave = s.slave ∧ u.func = s.func ∧ u.lsum = lsum (s.slave :: s.func :: p) ∧
      (s.func.getLsbD 7 = false → u.status = ⟨0, 0⟩ ∧ u.pbuf.Holds 0 p ∧
        ∀ (i : Nat) (b : Byte), s.pbuf.get? i = some b → u.pbuf.get? i = some b) ∧
      (s.func.getLsbD 7 = true → u.pbuf = s.pbuf ∧ (n = 0 → u.status = ⟨1, 0⟩) ∧
        ∀ code : Byte, p[0]? = some code → u.status = ⟨7, code⟩)

/-- A marked frame of hex characters whose decoded bytes sum to 0 with one of its hex characters replaced by another hex
character (R187): if the value changes, CHECKSUM_MISMATCH and no decoded output; if only the letter case changes,
the same characters decode to the same bytes. That an unwritten byte of the frame has one value within the command
is the model's choice (log 5). -/
def Obligations.AsciiSingleCharacterChangeIsDetected : Prop :=
  ∀ (s : State) (mid : List Byte) (k : Nat) (old new : Byte),
    s.flen.toNat = mid.length + 3 → s.flen.toNat ≤ s.cfg.fbufSize →
    (∀ ch ∈ mid, isHex ch = true) → mid.length % 2 = 0 → 6 ≤ mid.length → lsum (hexBytes mid) = 0 →
    mid[k]? = some old → isHex new = true →
    s.fbufBytes s.flen.toNat = 0x3A :: (mid.set k new ++ [0x0D, 0x0A]) →
    (hexVal new ≠ hexVal old →
      ∃ t : State, exec .asciiDecode s = .next t ∧ t.status = ⟨2, 0⟩ ∧ t.slave = s.slave ∧ t.func = s.func ∧
        t.plen = s.plen ∧ t.pbuf = s.pbuf) ∧
    (hexVal new = hexVal old → hexBytes (mid.set k new) = hexBytes mid)

/-! ### The control command and rules about every command -/

/-- SOFT_RESET (R210, R261), word 0x000000FF: every register to its reset value, STATUS 0, PBUF and FBUF unchanged. -/
def Obligations.SoftResetRestoresRegisters : Prop :=
  decode 0x000000FF = .ok .softReset ∧
  ∀ s : State, exec .softReset s = .next { s with
    status := ⟨0, 0⟩, crc := 0xFFFF, lsum := 0, slave := 0, func := 0, plen := 0, flen := 0, rxchk := 0 }

/-- Every command, from every state, ends in a next state, with ERR a code R221 writes and EXCODE 0 unless ERR is 7
(R220, R224; 93 U9). -/
def Obligations.EveryCommandEndsInARecordedOutcome : Prop :=
  ∀ (i : Instr) (s : State), ∃ t : State, exec i s = .next t ∧
    (t.status.err = 0 ∨ t.status.err = 1 ∨ t.status.err = 2 ∨ t.status.err = 5 ∨ t.status.err = 6 ∨
      t.status.err = 7 ∨ t.status.err = 8) ∧ (t.status.err ≠ 7 → t.status.excode = 0)

/-- No error is sticky (R228): what a command does, STATUS included, does not depend on STATUS. -/
def Obligations.CommandsIgnoreEarlierStatus : Prop :=
  ∀ (i : Instr) (s : State) (st : Status), exec i { s with status := st } = exec i s

/-- An error leaves FLEN, PLEN and both buffers as they were (R222, R223). -/
def Obligations.ErrorsKeepLengthsAndBuffers : Prop :=
  ∀ (i : Instr) (s t : State), exec i s = .next t → t.status.err ≠ 0 →
    t.flen = s.flen ∧ t.plen = s.plen ∧ t.pbuf = s.pbuf ∧ t.fbuf = s.fbuf

/-- What each command leaves unchanged (R266; R24, R25, R27 to R33): CRC by the LRC and ASCII commands, LSUM by the CRC
and RTU commands, RXCHK, SLAVE, FUNC and PLEN by all but the decoders and SOFT_RESET, FLEN by all but the encoders and
SOFT_RESET, PBUF by all but the decoders, FBUF by all but the encoders; parameters and host accesses by all. -/
def Obligations.CommandsWriteOnlyTheirOwnState : Prop :=
  ∀ (i : Instr) (s t : State), exec i s = .next t →
    (t.cfg = s.cfg ∧ t.hostProgram = s.hostProgram ∧ t.observations = s.observations) ∧
    (i ∈ [.lrcInit, .lrcFbuf, .asciiEncode, .asciiDecode] ∨ (∃ b, i = .lrcByte b) → t.crc = s.crc) ∧
    (i ∈ [.crcInit, .crcFbuf, .rtuEncode, .rtuDecode] ∨ (∃ b, i = .crcByte b) → t.lsum = s.lsum) ∧
    (i ∉ [.rtuDecode, .asciiDecode, .softReset] →
      t.rxchk = s.rxchk ∧ t.slave = s.slave ∧ t.func = s.func ∧ t.plen = s.plen) ∧
    (i ∉ [.rtuDecode, .asciiDecode] → t.pbuf = s.pbuf) ∧
    (i ∉ [.rtuEncode, .asciiEncode, .softReset] → t.flen = s.flen) ∧
    (i ∉ [.rtuEncode, .asciiEncode] → t.fbuf = s.fbuf)

/-- The model's draw counter (log 4, log 5; no rule of the spec): a command that reads no buffer leaves it, one that
reads FBUF[0:FLEN] or PBUF[0:PLEN] uses one draw a byte or, when it stops before it reads, none; a success always read
its operands. -/
def Obligations.CommandsUseOneDrawPerOperandByte : Prop :=
  ∀ (i : Instr) (s t : State), exec i s = .next t →
    (i ∈ [.crcInit, .lrcInit, .softReset] ∨ (∃ b, i = .crcByte b ∨ i = .lrcByte b) → t.draws = s.draws) ∧
    (i ∈ [.crcFbuf, .lrcFbuf, .rtuDecode, .asciiDecode] →
      (t.draws = s.draws ∨ t.draws = s.draws + s.flen.toNat) ∧
      (t.status.err = 0 → t.draws = s.draws + s.flen.toNat)) ∧
    (i ∈ [.rtuEncode, .asciiEncode] →
      (t.draws = s.draws ∨ t.draws = s.draws + s.plen.toNat) ∧
      (t.status.err = 0 → t.draws = s.draws + s.plen.toNat))

/-- No command writes outside a buffer (R62): every byte at or above a buffer's size is as before. -/
def Obligations.CommandsStayInsideBuffers : Prop :=
  ∀ (i : Instr) (s t : State), exec i s = .next t →
    (∀ j : Nat, s.cfg.pbufSize ≤ j → t.pbuf.get? j = s.pbuf.get? j) ∧
    (∀ j : Nat, s.cfg.fbufSize ≤ j → t.fbuf.get? j = s.fbuf.get? j)

/-- A decode depends on its operands alone (R35): two states with the same parameters, FLEN and FBUF[0:FLEN] bytes, all
written, give the same STATUS from each decoder, and the same decoded outputs when it succeeds, whatever else they
hold. -/
def Obligations.DecodersDependOnTheirOperands : Prop :=
  ∀ (i : Instr) (s₁ s₂ t₁ : State) (fr : List Byte), (i = .rtuDecode ∨ i = .asciiDecode) →
    s₁.cfg = s₂.cfg → s₁.flen = s₂.flen → s₁.flen.toNat = fr.length →
    s₁.fbuf.Holds 0 fr → s₂.fbuf.Holds 0 fr → exec i s₁ = .next t₁ →
    ∃ t₂ : State, exec i s₂ = .next t₂ ∧ t₂.status = t₁.status ∧
      (t₁.status.err = 0 → t₂.slave = t₁.slave ∧ t₂.func = t₁.func ∧ t₂.plen = t₁.plen ∧
        ∀ j : Nat, j < t₁.plen.toNat → t₂.pbuf.get? j = t₁.pbuf.get? j)
end

