-- ==== Sys2Proof/Laws/Checksum.lean ====
section
/-!
SUPPORT. The laws of the checksum functions: each round of the CRC is linear and one-to-one, the folds over appended
strings, the LRC as a negation.
-/

namespace Sys2Proof.Machine

theorem xor_right_cancel {a b : Word} (k : Word) (h : a ^^^ k = b ^^^ k) : a = b := by
  have := congrArg (· ^^^ k) h
  simpa [BitVec.xor_assoc] using this

theorem xor_left_cancel {a b : Word} (k : Word) (h : k ^^^ a = k ^^^ b) : a = b :=
  xor_right_cancel k (by rwa [BitVec.xor_comm a, BitVec.xor_comm b])

/-- The eight rounds of R100, written out. -/
theorem crcStep_eq (c : Word) (b : Byte) :
    crcStep c b = crcShift (crcShift (crcShift (crcShift (crcShift (crcShift (crcShift (crcShift (c ^^^ zext16 b)))))))) := rfl

/-- A round is linear over exclusive-or. -/
theorem crcShift_xor (a b : Word) : crcShift (a ^^^ b) = crcShift a ^^^ crcShift b := by
  have h : (a ^^^ b) >>> 1 = a >>> 1 ^^^ b >>> 1 := BitVec.ushiftRight_xor_distrib a b 1
  unfold crcShift
  rw [BitVec.getLsbD_xor, h]
  cases a.getLsbD 0 <;> cases b.getLsbD 0 <;> simp only [Bool.xor_false, Bool.xor_true, Bool.not_true, Bool.not_false, if_true, if_false, Bool.false_eq_true]
  · ac_rfl
  · ac_rfl
  · rw [show ∀ x y k : Word, (x ^^^ k) ^^^ (y ^^^ k) = x ^^^ y ^^^ (k ^^^ k) from fun x y k => by ac_rfl]; simp

/-- A round is one-to-one: bit 15 of the result is the bit that was shifted out. -/
theorem crcShift_injective : Function.Injective crcShift := by
  intro a b h
  have h0 : ∀ c : Word, (crcShift c).getLsbD 15 = c.getLsbD 0 := by
    intro c
    unfold crcShift
    cases hc : c.getLsbD 0 <;> simp
  have e : a.getLsbD 0 = b.getLsbD 0 := by rw [← h0, ← h0, h]
  have hs : a >>> 1 = b >>> 1 := by
    unfold crcShift at h
    rw [e] at h
    split at h
    · exact xor_right_cancel _ h
    · exact h
  apply BitVec.eq_of_getLsbD_eq
  intro i hi
  cases i with
  | zero => exact e
  | succ i =>
    have := congrArg (fun v => v.getLsbD i) hs
    simpa [BitVec.getLsbD_ushiftRight, Nat.add_comm] using this

/-- Eight rounds are one-to-one. -/
theorem crcRounds_injective : Function.Injective (Nat.repeat crcShift 8) :=
  have h := crcShift_injective
  (h.comp (h.comp (h.comp (h.comp (h.comp (h.comp (h.comp h)))))))

theorem zext16_xor (a b : Byte) : zext16 (a ^^^ b) = zext16 a ^^^ zext16 b := by
  simp [zext16]

/-- Different CRCs stay different when the same byte is fed. -/
theorem crcStep_left_injective (b : Byte) : Function.Injective fun c => crcStep c b := by
  intro a c h
  exact xor_right_cancel _ (crcRounds_injective h)

/-- Different bytes give different CRCs from the same CRC. -/
theorem crcStep_right_injective (c : Word) : Function.Injective fun b => crcStep c b := by
  intro a b h
  have h2 := congrArg BitVec.toNat (xor_left_cancel _ (crcRounds_injective h))
  have ha := a.isLt
  have hb := b.isLt
  simp only [zext16, BitVec.truncate_eq_setWidth, BitVec.toNat_setWidth] at h2
  exact BitVec.eq_of_toNat_eq (by omega)

/-- The continuation law of R102. -/
theorem crcCont_append (c : Word) (s t : List Byte) : crcCont c (s ++ t) = crcCont (crcCont c s) t := by
  simp [crcCont]

/-- Different CRCs stay different when the same bytes are fed. -/
theorem crcCont_injective (s : List Byte) : Function.Injective fun c => crcCont c s := by
  induction s with
  | nil => intro a b h; exact h
  | cons x xs ih =>
    intro a b h
    exact crcStep_left_injective x (ih h)

/-- A round whose shifted-out bit is 0 is a plain shift. -/
theorem crcShift_even {c : Word} (h : c.getLsbD 0 = false) : crcShift c = c >>> 1 := by
  rw [crcShift, if_neg (by rw [h]; exact Bool.false_ne_true)]

/-- Feeding a CRC its own low byte shifts it right by 8. -/
theorem crcStep_lo (c : Word) : crcStep c (lo8 c) = c >>> 8 := by
  have hz : ∀ i < 8, (c ^^^ zext16 (lo8 c)).getLsbD i = false := by
    intro i hi
    simp [zext16, lo8, hi, show i < 16 by omega]
  rw [crcStep_eq]
  have hx : (c ^^^ zext16 (lo8 c)) >>> 8 = c >>> 8 := by
    apply BitVec.eq_of_getLsbD_eq
    intro i hi
    simp [zext16, lo8]
  have step : ∀ k < 8, crcShift ((c ^^^ zext16 (lo8 c)) >>> k) = (c ^^^ zext16 (lo8 c)) >>> (k+1) := by
    intro k hk
    rw [crcShift_even (by simpa using hz k hk), BitVec.shiftRight_add]
  have := step 0 (by omega)
  rw [BitVec.ushiftRight_zero] at this
  rw [this, step 1 (by omega), step 2 (by omega), step 3 (by omega), step 4 (by omega), step 5 (by omega), step 6 (by omega), step 7 (by omega), hx]

/-- A CRC followed by its two bytes, low byte first, ends at 0. -/
theorem crcStep_lo_hi (c : Word) : crcStep (crcStep c (lo8 c)) (hi8 c) = 0 := by
  rw [crcStep_lo, show hi8 c = lo8 (c >>> 8) from ?_, crcStep_lo]
  · apply BitVec.eq_of_getLsbD_eq
    intro i hi
    simp
  · apply BitVec.eq_of_getLsbD_eq
    intro i hi
    simp [hi8, lo8, hi]

/-! ### The sum and the LRC -/

/-- The two's complement of R26 and R103 is negation modulo 256. -/
theorem negate8_eq_neg (v : Byte) : negate8 v = -v := by
  apply BitVec.eq_of_toNat_eq
  simp [negate8, BitVec.toNat_neg]

theorem foldl_add (acc : Byte) (s : List Byte) : s.foldl (fun acc b => acc + b) acc = acc + lsum s := by
  induction s generalizing acc with
  | nil => exact (add_zero acc).symm
  | cons b s ih => rw [lsum, List.foldl_cons, List.foldl_cons, ih, ih (0 + b), zero_add, add_assoc]

@[simp] theorem lsum_nil : lsum [] = 0 := rfl

theorem lsum_cons (b : Byte) (s : List Byte) : lsum (b :: s) = b + lsum s := by
  rw [lsum, List.foldl_cons, foldl_add, zero_add]

theorem lsum_append (s t : List Byte) : lsum (s ++ t) = lsum s + lsum t := by
  rw [lsum, List.foldl_append, foldl_add]; rfl

theorem lrc_eq_neg (s : List Byte) : lrc s = -lsum s := negate8_eq_neg _

/-- The LRC test is the test that all the bytes sum to 0 (42_ascii_codec.md R187). -/
theorem lrc_eq_iff (s : List Byte) (l : Byte) : lrc s = l ↔ lsum (s ++ [l]) = 0 := by
  rw [lrc_eq_neg, lsum_append, lsum_cons, lsum_nil, add_zero, neg_eq_iff_add_eq_zero]

end Sys2Proof.Machine
end

