-- ==== Sys2Proof/Laws/Decode.lean ====
section
/-!
SUPPORT. The fields of a command word, and that each row's mask selects exactly the words of its fields.
-/

namespace Sys2Proof

/-- A command word is its three fields. -/
theorem word_eq_fields (w : HostWord) : w = rsvField w ++ immField w ++ opField w := by
  apply BitVec.eq_of_getLsbD_eq
  intro i hi
  simp only [rsvField, immField, opField, BitVec.getLsbD_append, BitVec.getLsbD_extractLsb']
  split_ifs with h₁ h₂
  · simp [h₁]
  · have : i - 8 < 8 := h₂
    simp [this]; congr 1; omega
  · have : i - 8 - 8 < 16 := by omega
    simp [this]; congr 1; omega

/-- Bit `i` of a word written as its three fields. -/
theorem getLsbD_fields (rsv : Word) (imm op : Byte) (i : Nat) :
    (rsv ++ imm ++ op : BitVec 32).getLsbD i =
      if i < 8 then op.getLsbD i else if i - 8 < 8 then imm.getLsbD (i - 8) else rsv.getLsbD (i - 8 - 8) := by
  have h := BitVec.getLsbD_append (x := rsv ++ imm) (y := op) (i := i)
  rw [BitVec.getLsbD_append (x := rsv) (y := imm) (i := i - 8)] at h
  exact h

@[simp] theorem opField_fields (rsv : Word) (imm op : Byte) : opField (rsv ++ imm ++ op : BitVec 32) = op := by
  apply BitVec.eq_of_getLsbD_eq
  intro i hi
  rw [opField, BitVec.getLsbD_extractLsb', getLsbD_fields]
  simp [hi]

@[simp] theorem immField_fields (rsv : Word) (imm op : Byte) : immField (rsv ++ imm ++ op : BitVec 32) = imm := by
  apply BitVec.eq_of_getLsbD_eq
  intro i hi
  rw [immField, BitVec.getLsbD_extractLsb', getLsbD_fields]
  simp [hi]

@[simp] theorem rsvField_fields (rsv : Word) (imm op : Byte) : rsvField (rsv ++ imm ++ op : BitVec 32) = rsv := by
  apply BitVec.eq_of_getLsbD_eq
  intro i hi
  rw [rsvField, BitVec.getLsbD_extractLsb', getLsbD_fields]
  simp [hi, show ¬ (16 + i < 8) by omega, show ¬ (16 + i - 8 < 8) by omega, show 16 + i - 8 - 8 = i by omega]

@[simp] theorem opField_commandWord (op imm : Byte) : opField (commandWord op imm) = op := opField_fields 0#16 imm op

@[simp] theorem immField_commandWord (op imm : Byte) : immField (commandWord op imm) = imm :=
  immField_fields 0#16 imm op

@[simp] theorem rsvField_commandWord (op imm : Byte) : rsvField (commandWord op imm) = 0 := rsvField_fields 0#16 imm op

/-- A word with RSV 0 is the command word of its other two fields. -/
theorem eq_commandWord_of_rsv {w : HostWord} (h : rsvField w = 0) : w = commandWord (opField w) (immField w) := by
  have := word_eq_fields w
  rw [h] at this
  exact this

/-- The full mask selects one word. -/
theorem selects_full (p w : HostWord) (f : Byte → Instr) :
    (OpcodeRow.mk p 0xFFFFFFFF f).selects w = true ↔ w = p := by
  have hm : w &&& 0xFFFFFFFF#32 = w := BitVec.and_allOnes
  simp only [OpcodeRow.selects, beq_iff_eq]
  exact ⟨fun h => hm.symm.trans h, fun h => hm.trans h⟩

/-- The mask of a command that takes IMM8 selects the words of its opcode with RSV 0 and any IMM8. -/
theorem selects_imm {p : HostWord} {op : Byte} (hp : p = commandWord op 0) (w : HostWord) (f : Byte → Instr) :
    (OpcodeRow.mk p 0xFFFF00FF f).selects w = true ↔ rsvField w = 0 ∧ opField w = op := by
  subst hp
  have hw : w &&& 0xFFFF00FF#32 = (rsvField w ++ 0#8 ++ opField w : BitVec 32) := by
    apply BitVec.eq_of_getLsbD_eq
    intro i hi
    have hm : (0xFFFF00FF#32 : BitVec 32) = (BitVec.allOnes 16 ++ 0#8 ++ BitVec.allOnes 8 : BitVec 32) := by decide
    conv_lhs => rw [word_eq_fields w, hm]
    rw [BitVec.getLsbD_and, getLsbD_fields, getLsbD_fields, getLsbD_fields]
    split_ifs with h₁ h₂
    · rw [BitVec.getLsbD_allOnes]; simp [h₁]
    · simp
    · rw [BitVec.getLsbD_allOnes]; simp [show i - 8 - 8 < 16 by omega]
  simp only [OpcodeRow.selects, beq_iff_eq]
  constructor
  · intro h
    have h' := hw.symm.trans h
    exact ⟨by simpa using congrArg rsvField h', by simpa using congrArg opField h'⟩
  · rintro ⟨h₁, h₂⟩
    exact hw.trans (by rw [h₁, h₂]; rfl)

end Sys2Proof
end

