-- ==== Sys2Proof/Laws/Memory.lean ====
section
/-!
SUPPORT. The laws of buffer memory: read after write, canonical form, what a byte string read holds.
-/

namespace Sys2Proof.Machine.Memory

/-! ### Read after write -/

@[simp] theorem get?_nil (i : Nat) : get? [] i = none := rfl

theorem get?_set_self (m : Memory) (i : Nat) (b : Byte) : (set m i b).get? i = some b := by
  induction m with
  | nil => simp [set, get?]
  | cons c m ih =>
    obtain ⟨k, v⟩ := c
    simp only [set]
    split_ifs with h₁ h₂
    · simp [get?]
    · simp [get?]
    · simp [get?, h₂, ih]

theorem get?_set_ne (m : Memory) {i j : Nat} (b : Byte) (h : j ≠ i) : (set m i b).get? j = m.get? j := by
  induction m with
  | nil => simp [set, get?, h]
  | cons c m ih =>
    obtain ⟨k, v⟩ := c
    simp only [set]
    split_ifs with h₁ h₂
    · simp [get?, h]
    · subst h₂; simp [get?, h]
    · simp [get?, ih]

theorem get?_set (m : Memory) (i j : Nat) (b : Byte) :
    (set m i b).get? j = if j = i then some b else m.get? j := by
  split_ifs with h
  · subst h; exact get?_set_self m j b
  · exact get?_set_ne m b h

/-- What `setAll` leaves at each index: byte `j - i` of the string where the string reaches, the old byte
elsewhere. -/
theorem get?_setAll (m : Memory) (i j : Nat) (bs : List Byte) :
    (setAll m i bs).get? j = if i ≤ j ∧ j < i + bs.length then bs[j - i]? else m.get? j := by
  induction bs generalizing m i with
  | nil =>
    have : ¬ (i ≤ j ∧ j < i + ([] : List Byte).length) := by rw [List.length_nil]; omega
    rw [if_neg this, setAll]
  | cons b bs ih =>
    simp only [setAll, ih, get?_set, List.length_cons]
    by_cases h : j = i
    · subst h; simp
    · by_cases h' : i + 1 ≤ j ∧ j < i + 1 + bs.length
      · have h'' : i ≤ j ∧ j < i + (bs.length + 1) := by omega
        obtain ⟨n, rfl⟩ : ∃ n, j = i + 1 + n := ⟨j - (i + 1), by omega⟩
        rw [if_pos h', if_pos h'', show i + 1 + n - (i + 1) = n by omega, show i + 1 + n - i = n + 1 by omega]
        simp
      · have h'' : ¬ (i ≤ j ∧ j < i + (bs.length + 1)) := by omega
        rw [if_neg h', if_neg h'', if_neg h]

theorem get?_setAll_of_lt (m : Memory) {j : Nat} {bs : List Byte} (h : j < bs.length) :
    (setAll m 0 bs).get? j = some bs[j] := by
  rw [get?_setAll, if_pos (by omega)]; simp [h]

theorem get?_setAll_of_ge (m : Memory) {j : Nat} {bs : List Byte} (h : bs.length ≤ j) :
    (setAll m 0 bs).get? j = m.get? j := by
  rw [get?_setAll, if_neg (by omega)]

/-! ### The canonical form -/

theorem risesFrom_set {lo i : Nat} {m : Memory} (b : Byte) (hm : risesFrom lo m = true) (hi : lo ≤ i) :
    risesFrom lo (set m i b) = true := by
  induction m generalizing lo with
  | nil => simp [set, risesFrom, hi]
  | cons c m ih =>
    obtain ⟨k, v⟩ := c
    simp only [risesFrom, Bool.and_eq_true, decide_eq_true_eq] at hm
    simp only [set]
    split_ifs with h₁ h₂
    · simp [risesFrom, hi, hm.2]; omega
    · subst h₂; simp [risesFrom, hi, hm.2]
    · simp only [risesFrom, hm.1, decide_true, Bool.true_and]
      exact ih hm.2 (by omega)

/-- A write keeps the canonical form. -/
theorem wf_set {m : Memory} (i : Nat) (b : Byte) (hm : m.wf = true) : (set m i b).wf = true :=
  risesFrom_set b hm (Nat.zero_le i)

/-- Writing a byte string keeps the canonical form. -/
theorem wf_setAll {m : Memory} (i : Nat) (bs : List Byte) (hm : m.wf = true) : (setAll m i bs).wf = true := by
  induction bs generalizing m i with
  | nil => exact hm
  | cons b bs ih => exact ih (i + 1) (wf_set i b hm)

theorem below_set {size i : Nat} {m : Memory} (b : Byte) (hm : m.below size = true) (hi : i < size) :
    (set m i b).below size = true := by
  induction m with
  | nil => simp [set, below, hi]
  | cons c m ih =>
    obtain ⟨k, v⟩ := c
    simp only [below, List.all_cons, Bool.and_eq_true, decide_eq_true_eq] at hm ih
    simp only [set]
    split_ifs with h₁ h₂
    · simp only [below, List.all_cons, Bool.and_eq_true, decide_eq_true_eq]; exact ⟨hi, hm⟩
    · simp only [below, List.all_cons, Bool.and_eq_true, decide_eq_true_eq]; exact ⟨hi, hm.2⟩
    · simp only [below, List.all_cons, Bool.and_eq_true, decide_eq_true_eq]; exact ⟨hm.1, ih hm.2⟩

theorem below_setAll {size i : Nat} {m : Memory} {bs : List Byte} (hm : m.below size = true)
    (h : i + bs.length ≤ size) : (setAll m i bs).below size = true := by
  induction bs generalizing m i with
  | nil => exact hm
  | cons b bs ih =>
    simp only [List.length_cons] at h
    exact ih (below_set b hm (by omega)) (by omega)

/-- Nothing is listed at or above the size. -/
theorem get?_eq_none_of_below {size j : Nat} {m : Memory} (hm : m.below size = true) (hj : size ≤ j) :
    m.get? j = none := by
  induction m with
  | nil => rfl
  | cons c m ih =>
    obtain ⟨k, v⟩ := c
    simp only [below, List.all_cons, Bool.and_eq_true, decide_eq_true_eq] at hm ih
    rw [get?, if_neg (by omega), ih hm.2]

/-! ### Byte strings read -/

theorem read_of_written {m : Memory} {i : Nat} {b : Byte} (d : Nat) (h : m.get? i = some b) : m.read d i = b := by
  simp [read, h]

theorem read_of_unwritten {m : Memory} {i : Nat} (d : Nat) (h : m.get? i = none) :
    m.read d i = Config.freeByte d := by
  simp [read, h]

@[simp] theorem length_readAll (m : Memory) (d n : Nat) : (m.readAll d n).length = n := by simp [readAll]

theorem getElem?_readAll (m : Memory) (d : Nat) {n i : Nat} (h : i < n) :
    (m.readAll d n)[i]? = some (m.read (d + i) i) := by
  simp [readAll, h]

/-- A buffer whose first bytes are written reads as those bytes, whatever the draws. -/
theorem readAll_of_written {m : Memory} {bs : List Byte} (d : Nat)
    (h : ∀ k : Nat, k < bs.length → m.get? k = bs[k]?) : m.readAll d bs.length = bs := by
  apply List.ext_getElem?
  intro k
  by_cases hk : k < bs.length
  · rw [getElem?_readAll m d hk, List.getElem?_eq_getElem hk,
      read_of_written (d + k) ((h k hk).trans (List.getElem?_eq_getElem hk))]
  · rw [List.getElem?_eq_none (by simpa using hk), List.getElem?_eq_none (by omega)]

/-- Reading back a byte string just written from index 0. -/
theorem readAll_setAll (m : Memory) (d : Nat) (bs : List Byte) : (setAll m 0 bs).readAll d bs.length = bs :=
  readAll_of_written d fun k hk => by rw [get?_setAll, if_pos (by omega)]; simp

end Sys2Proof.Machine.Memory
end

