-- ==== Sys2Proof/Laws/State.lean ====
section
/-!
SUPPORT. One lemma per field per named update of the state, so that no later proof unfolds an update.
-/

namespace Sys2Proof.Machine.State

variable (s : State)

/-! `setStatus` -/

@[simp] theorem setStatus_cfg (st : Status) : (s.setStatus st).cfg = s.cfg := rfl
@[simp] theorem setStatus_status (st : Status) : (s.setStatus st).status = st := rfl
@[simp] theorem setStatus_crc (st : Status) : (s.setStatus st).crc = s.crc := rfl
@[simp] theorem setStatus_lsum (st : Status) : (s.setStatus st).lsum = s.lsum := rfl
@[simp] theorem setStatus_slave (st : Status) : (s.setStatus st).slave = s.slave := rfl
@[simp] theorem setStatus_func (st : Status) : (s.setStatus st).func = s.func := rfl
@[simp] theorem setStatus_plen (st : Status) : (s.setStatus st).plen = s.plen := rfl
@[simp] theorem setStatus_flen (st : Status) : (s.setStatus st).flen = s.flen := rfl
@[simp] theorem setStatus_rxchk (st : Status) : (s.setStatus st).rxchk = s.rxchk := rfl
@[simp] theorem setStatus_pbuf (st : Status) : (s.setStatus st).pbuf = s.pbuf := rfl
@[simp] theorem setStatus_fbuf (st : Status) : (s.setStatus st).fbuf = s.fbuf := rfl
@[simp] theorem setStatus_draws (st : Status) : (s.setStatus st).draws = s.draws := rfl
@[simp] theorem setStatus_hostProgram (st : Status) : (s.setStatus st).hostProgram = s.hostProgram := rfl
@[simp] theorem setStatus_observations (st : Status) : (s.setStatus st).observations = s.observations := rfl

/-! `setCrc` -/

@[simp] theorem setCrc_cfg (c : Word) : (s.setCrc c).cfg = s.cfg := rfl
@[simp] theorem setCrc_status (c : Word) : (s.setCrc c).status = s.status := rfl
@[simp] theorem setCrc_crc (c : Word) : (s.setCrc c).crc = c := rfl
@[simp] theorem setCrc_lsum (c : Word) : (s.setCrc c).lsum = s.lsum := rfl
@[simp] theorem setCrc_slave (c : Word) : (s.setCrc c).slave = s.slave := rfl
@[simp] theorem setCrc_func (c : Word) : (s.setCrc c).func = s.func := rfl
@[simp] theorem setCrc_plen (c : Word) : (s.setCrc c).plen = s.plen := rfl
@[simp] theorem setCrc_flen (c : Word) : (s.setCrc c).flen = s.flen := rfl
@[simp] theorem setCrc_rxchk (c : Word) : (s.setCrc c).rxchk = s.rxchk := rfl
@[simp] theorem setCrc_pbuf (c : Word) : (s.setCrc c).pbuf = s.pbuf := rfl
@[simp] theorem setCrc_fbuf (c : Word) : (s.setCrc c).fbuf = s.fbuf := rfl
@[simp] theorem setCrc_draws (c : Word) : (s.setCrc c).draws = s.draws := rfl
@[simp] theorem setCrc_hostProgram (c : Word) : (s.setCrc c).hostProgram = s.hostProgram := rfl
@[simp] theorem setCrc_observations (c : Word) : (s.setCrc c).observations = s.observations := rfl

/-! `setLsum` -/

@[simp] theorem setLsum_cfg (v : Byte) : (s.setLsum v).cfg = s.cfg := rfl
@[simp] theorem setLsum_status (v : Byte) : (s.setLsum v).status = s.status := rfl
@[simp] theorem setLsum_crc (v : Byte) : (s.setLsum v).crc = s.crc := rfl
@[simp] theorem setLsum_lsum (v : Byte) : (s.setLsum v).lsum = v := rfl
@[simp] theorem setLsum_slave (v : Byte) : (s.setLsum v).slave = s.slave := rfl
@[simp] theorem setLsum_func (v : Byte) : (s.setLsum v).func = s.func := rfl
@[simp] theorem setLsum_plen (v : Byte) : (s.setLsum v).plen = s.plen := rfl
@[simp] theorem setLsum_flen (v : Byte) : (s.setLsum v).flen = s.flen := rfl
@[simp] theorem setLsum_rxchk (v : Byte) : (s.setLsum v).rxchk = s.rxchk := rfl
@[simp] theorem setLsum_pbuf (v : Byte) : (s.setLsum v).pbuf = s.pbuf := rfl
@[simp] theorem setLsum_fbuf (v : Byte) : (s.setLsum v).fbuf = s.fbuf := rfl
@[simp] theorem setLsum_draws (v : Byte) : (s.setLsum v).draws = s.draws := rfl
@[simp] theorem setLsum_hostProgram (v : Byte) : (s.setLsum v).hostProgram = s.hostProgram := rfl
@[simp] theorem setLsum_observations (v : Byte) : (s.setLsum v).observations = s.observations := rfl

/-! `setRxchk` -/

@[simp] theorem setRxchk_cfg (v : Word) : (s.setRxchk v).cfg = s.cfg := rfl
@[simp] theorem setRxchk_status (v : Word) : (s.setRxchk v).status = s.status := rfl
@[simp] theorem setRxchk_crc (v : Word) : (s.setRxchk v).crc = s.crc := rfl
@[simp] theorem setRxchk_lsum (v : Word) : (s.setRxchk v).lsum = s.lsum := rfl
@[simp] theorem setRxchk_slave (v : Word) : (s.setRxchk v).slave = s.slave := rfl
@[simp] theorem setRxchk_func (v : Word) : (s.setRxchk v).func = s.func := rfl
@[simp] theorem setRxchk_plen (v : Word) : (s.setRxchk v).plen = s.plen := rfl
@[simp] theorem setRxchk_flen (v : Word) : (s.setRxchk v).flen = s.flen := rfl
@[simp] theorem setRxchk_rxchk (v : Word) : (s.setRxchk v).rxchk = v := rfl
@[simp] theorem setRxchk_pbuf (v : Word) : (s.setRxchk v).pbuf = s.pbuf := rfl
@[simp] theorem setRxchk_fbuf (v : Word) : (s.setRxchk v).fbuf = s.fbuf := rfl
@[simp] theorem setRxchk_draws (v : Word) : (s.setRxchk v).draws = s.draws := rfl
@[simp] theorem setRxchk_hostProgram (v : Word) : (s.setRxchk v).hostProgram = s.hostProgram := rfl
@[simp] theorem setRxchk_observations (v : Word) : (s.setRxchk v).observations = s.observations := rfl

/-! `setAddress` -/

@[simp] theorem setAddress_cfg (a f : Byte) : (s.setAddress a f).cfg = s.cfg := rfl
@[simp] theorem setAddress_status (a f : Byte) : (s.setAddress a f).status = s.status := rfl
@[simp] theorem setAddress_crc (a f : Byte) : (s.setAddress a f).crc = s.crc := rfl
@[simp] theorem setAddress_lsum (a f : Byte) : (s.setAddress a f).lsum = s.lsum := rfl
@[simp] theorem setAddress_slave (a f : Byte) : (s.setAddress a f).slave = a := rfl
@[simp] theorem setAddress_func (a f : Byte) : (s.setAddress a f).func = f := rfl
@[simp] theorem setAddress_plen (a f : Byte) : (s.setAddress a f).plen = s.plen := rfl
@[simp] theorem setAddress_flen (a f : Byte) : (s.setAddress a f).flen = s.flen := rfl
@[simp] theorem setAddress_rxchk (a f : Byte) : (s.setAddress a f).rxchk = s.rxchk := rfl
@[simp] theorem setAddress_pbuf (a f : Byte) : (s.setAddress a f).pbuf = s.pbuf := rfl
@[simp] theorem setAddress_fbuf (a f : Byte) : (s.setAddress a f).fbuf = s.fbuf := rfl
@[simp] theorem setAddress_draws (a f : Byte) : (s.setAddress a f).draws = s.draws := rfl
@[simp] theorem setAddress_hostProgram (a f : Byte) : (s.setAddress a f).hostProgram = s.hostProgram := rfl
@[simp] theorem setAddress_observations (a f : Byte) : (s.setAddress a f).observations = s.observations := rfl

/-! `setPayload` -/

@[simp] theorem setPayload_cfg (p : List Byte) : (s.setPayload p).cfg = s.cfg := rfl
@[simp] theorem setPayload_status (p : List Byte) : (s.setPayload p).status = s.status := rfl
@[simp] theorem setPayload_crc (p : List Byte) : (s.setPayload p).crc = s.crc := rfl
@[simp] theorem setPayload_lsum (p : List Byte) : (s.setPayload p).lsum = s.lsum := rfl
@[simp] theorem setPayload_slave (p : List Byte) : (s.setPayload p).slave = s.slave := rfl
@[simp] theorem setPayload_func (p : List Byte) : (s.setPayload p).func = s.func := rfl
@[simp] theorem setPayload_plen (p : List Byte) : (s.setPayload p).plen = BitVec.ofNat 16 p.length := rfl
@[simp] theorem setPayload_flen (p : List Byte) : (s.setPayload p).flen = s.flen := rfl
@[simp] theorem setPayload_rxchk (p : List Byte) : (s.setPayload p).rxchk = s.rxchk := rfl
@[simp] theorem setPayload_pbuf (p : List Byte) : (s.setPayload p).pbuf = s.pbuf.setAll 0 p := rfl
@[simp] theorem setPayload_fbuf (p : List Byte) : (s.setPayload p).fbuf = s.fbuf := rfl
@[simp] theorem setPayload_draws (p : List Byte) : (s.setPayload p).draws = s.draws := rfl
@[simp] theorem setPayload_hostProgram (p : List Byte) : (s.setPayload p).hostProgram = s.hostProgram := rfl
@[simp] theorem setPayload_observations (p : List Byte) : (s.setPayload p).observations = s.observations := rfl

/-! `setFrame` -/

@[simp] theorem setFrame_cfg (f : List Byte) : (s.setFrame f).cfg = s.cfg := rfl
@[simp] theorem setFrame_status (f : List Byte) : (s.setFrame f).status = s.status := rfl
@[simp] theorem setFrame_crc (f : List Byte) : (s.setFrame f).crc = s.crc := rfl
@[simp] theorem setFrame_lsum (f : List Byte) : (s.setFrame f).lsum = s.lsum := rfl
@[simp] theorem setFrame_slave (f : List Byte) : (s.setFrame f).slave = s.slave := rfl
@[simp] theorem setFrame_func (f : List Byte) : (s.setFrame f).func = s.func := rfl
@[simp] theorem setFrame_plen (f : List Byte) : (s.setFrame f).plen = s.plen := rfl
@[simp] theorem setFrame_flen (f : List Byte) : (s.setFrame f).flen = BitVec.ofNat 16 f.length := rfl
@[simp] theorem setFrame_rxchk (f : List Byte) : (s.setFrame f).rxchk = s.rxchk := rfl
@[simp] theorem setFrame_pbuf (f : List Byte) : (s.setFrame f).pbuf = s.pbuf := rfl
@[simp] theorem setFrame_fbuf (f : List Byte) : (s.setFrame f).fbuf = s.fbuf.setAll 0 f := rfl
@[simp] theorem setFrame_draws (f : List Byte) : (s.setFrame f).draws = s.draws := rfl
@[simp] theorem setFrame_hostProgram (f : List Byte) : (s.setFrame f).hostProgram = s.hostProgram := rfl
@[simp] theorem setFrame_observations (f : List Byte) : (s.setFrame f).observations = s.observations := rfl

/-! `useDraws` -/

@[simp] theorem useDraws_cfg (n : Nat) : (s.useDraws n).cfg = s.cfg := rfl
@[simp] theorem useDraws_status (n : Nat) : (s.useDraws n).status = s.status := rfl
@[simp] theorem useDraws_crc (n : Nat) : (s.useDraws n).crc = s.crc := rfl
@[simp] theorem useDraws_lsum (n : Nat) : (s.useDraws n).lsum = s.lsum := rfl
@[simp] theorem useDraws_slave (n : Nat) : (s.useDraws n).slave = s.slave := rfl
@[simp] theorem useDraws_func (n : Nat) : (s.useDraws n).func = s.func := rfl
@[simp] theorem useDraws_plen (n : Nat) : (s.useDraws n).plen = s.plen := rfl
@[simp] theorem useDraws_flen (n : Nat) : (s.useDraws n).flen = s.flen := rfl
@[simp] theorem useDraws_rxchk (n : Nat) : (s.useDraws n).rxchk = s.rxchk := rfl
@[simp] theorem useDraws_pbuf (n : Nat) : (s.useDraws n).pbuf = s.pbuf := rfl
@[simp] theorem useDraws_fbuf (n : Nat) : (s.useDraws n).fbuf = s.fbuf := rfl
@[simp] theorem useDraws_draws (n : Nat) : (s.useDraws n).draws = s.draws + n := rfl
@[simp] theorem useDraws_hostProgram (n : Nat) : (s.useDraws n).hostProgram = s.hostProgram := rfl
@[simp] theorem useDraws_observations (n : Nat) : (s.useDraws n).observations = s.observations := rfl

/-! `setHostProgram` -/

@[simp] theorem setHostProgram_cfg (rest : List HostAccess) : (s.setHostProgram rest).cfg = s.cfg := rfl
@[simp] theorem setHostProgram_status (rest : List HostAccess) : (s.setHostProgram rest).status = s.status := rfl
@[simp] theorem setHostProgram_crc (rest : List HostAccess) : (s.setHostProgram rest).crc = s.crc := rfl
@[simp] theorem setHostProgram_lsum (rest : List HostAccess) : (s.setHostProgram rest).lsum = s.lsum := rfl
@[simp] theorem setHostProgram_slave (rest : List HostAccess) : (s.setHostProgram rest).slave = s.slave := rfl
@[simp] theorem setHostProgram_func (rest : List HostAccess) : (s.setHostProgram rest).func = s.func := rfl
@[simp] theorem setHostProgram_plen (rest : List HostAccess) : (s.setHostProgram rest).plen = s.plen := rfl
@[simp] theorem setHostProgram_flen (rest : List HostAccess) : (s.setHostProgram rest).flen = s.flen := rfl
@[simp] theorem setHostProgram_rxchk (rest : List HostAccess) : (s.setHostProgram rest).rxchk = s.rxchk := rfl
@[simp] theorem setHostProgram_pbuf (rest : List HostAccess) : (s.setHostProgram rest).pbuf = s.pbuf := rfl
@[simp] theorem setHostProgram_fbuf (rest : List HostAccess) : (s.setHostProgram rest).fbuf = s.fbuf := rfl
@[simp] theorem setHostProgram_draws (rest : List HostAccess) : (s.setHostProgram rest).draws = s.draws := rfl
@[simp] theorem setHostProgram_hostProgram (rest : List HostAccess) : (s.setHostProgram rest).hostProgram = rest := rfl
@[simp] theorem setHostProgram_observations (rest : List HostAccess) : (s.setHostProgram rest).observations = s.observations := rfl

/-! `observe` -/

@[simp] theorem observe_cfg (o : Observation) : (s.observe o).cfg = s.cfg := rfl
@[simp] theorem observe_status (o : Observation) : (s.observe o).status = s.status := rfl
@[simp] theorem observe_crc (o : Observation) : (s.observe o).crc = s.crc := rfl
@[simp] theorem observe_lsum (o : Observation) : (s.observe o).lsum = s.lsum := rfl
@[simp] theorem observe_slave (o : Observation) : (s.observe o).slave = s.slave := rfl
@[simp] theorem observe_func (o : Observation) : (s.observe o).func = s.func := rfl
@[simp] theorem observe_plen (o : Observation) : (s.observe o).plen = s.plen := rfl
@[simp] theorem observe_flen (o : Observation) : (s.observe o).flen = s.flen := rfl
@[simp] theorem observe_rxchk (o : Observation) : (s.observe o).rxchk = s.rxchk := rfl
@[simp] theorem observe_pbuf (o : Observation) : (s.observe o).pbuf = s.pbuf := rfl
@[simp] theorem observe_fbuf (o : Observation) : (s.observe o).fbuf = s.fbuf := rfl
@[simp] theorem observe_draws (o : Observation) : (s.observe o).draws = s.draws := rfl
@[simp] theorem observe_hostProgram (o : Observation) : (s.observe o).hostProgram = s.hostProgram := rfl
@[simp] theorem observe_observations (o : Observation) : (s.observe o).observations = s.observations ++ [o] := rfl

/-! `resetRegisters` -/

@[simp] theorem resetRegisters_cfg : (s.resetRegisters).cfg = s.cfg := rfl
@[simp] theorem resetRegisters_status : (s.resetRegisters).status = okStatus := rfl
@[simp] theorem resetRegisters_crc : (s.resetRegisters).crc = 0xFFFF := rfl
@[simp] theorem resetRegisters_lsum : (s.resetRegisters).lsum = 0 := rfl
@[simp] theorem resetRegisters_slave : (s.resetRegisters).slave = 0 := rfl
@[simp] theorem resetRegisters_func : (s.resetRegisters).func = 0 := rfl
@[simp] theorem resetRegisters_plen : (s.resetRegisters).plen = 0 := rfl
@[simp] theorem resetRegisters_flen : (s.resetRegisters).flen = 0 := rfl
@[simp] theorem resetRegisters_rxchk : (s.resetRegisters).rxchk = 0 := rfl
@[simp] theorem resetRegisters_pbuf : (s.resetRegisters).pbuf = s.pbuf := rfl
@[simp] theorem resetRegisters_fbuf : (s.resetRegisters).fbuf = s.fbuf := rfl
@[simp] theorem resetRegisters_draws : (s.resetRegisters).draws = s.draws := rfl
@[simp] theorem resetRegisters_hostProgram : (s.resetRegisters).hostProgram = s.hostProgram := rfl
@[simp] theorem resetRegisters_observations : (s.resetRegisters).observations = s.observations := rfl

end Sys2Proof.Machine.State
end

