-- ==== Sys2Proof/Laws/Outcome.lean ====
section
/-!
SUPPORT. What each shared operation can do, said once: how a command ends, what the decoders' common end does, what
a step does with the host's next access.
-/

namespace Sys2Proof.Machine

theorem succeed_eq (s : State) : succeed s = .next (s.setStatus okStatus) := rfl

theorem raise_eq (k : FrameError) (s : State) : raise k s = .next (s.setStatus (errorStatus k)) := rfl

/-- Everything the decoders' common end can do (R91, R145, R185). -/
theorem deliver_cases (a f : Byte) (p : List Byte) (s : State) :
    (f.getLsbD 7 = true ∧ p = [] ∧ deliver a f p s = .next (s.setStatus (errorStatus .truncated))) ∨
    (∃ code rest, f.getLsbD 7 = true ∧ p = code :: rest ∧
      deliver a f p s = .next ((s.setAddress a f).setStatus (errorStatus (.exceptionResponse code)))) ∨
    (f.getLsbD 7 = false ∧ s.cfg.pbufSize < p.length ∧
      deliver a f p s = .next (s.setStatus (errorStatus .overflow))) ∨
    (f.getLsbD 7 = false ∧ p.length ≤ s.cfg.pbufSize ∧
      deliver a f p s = .next (((s.setAddress a f).setPayload p).setStatus okStatus)) := by
  unfold deliver
  by_cases h7 : f.getLsbD 7 = true
  · cases p with
    | nil => left; simp [h7, raise_eq]
    | cons c r => right; left; exact ⟨c, r, h7, rfl, by simp [h7, raise_eq]⟩
  · have h7' : f.getLsbD 7 = false := by simpa using h7
    by_cases hp : p.length > s.cfg.pbufSize
    · right; right; left; exact ⟨h7', hp, by rw [if_neg h7, if_pos hp, raise_eq]⟩
    · right; right; right; exact ⟨h7', by omega, by rw [if_neg h7, if_neg hp, succeed_eq]⟩

/-- The access that starts a command is accepted as a write to CMD. -/
theorem request_commandAccess (p : Params) (w : HostWord) :
    request p (commandAccess p w) = .ok (.writeReg .cmd w) := by
  have h : ¬ (p.sfcBase < p.sfcBase ∨ p.sfcBase + 0x4000 ≤ p.sfcBase) := by omega
  simp [request, commandAccess, regOffset, windowOffset, windowSize, registerAt, regOfSlot, bind, Except.bind, pure,
    Except.pure]

/-- A step whose access is a CMD write runs the command of its word. -/
theorem step_commandAccess {s : State} {w : HostWord} {rest : List HostAccess}
    (h : s.hostProgram = commandAccess s.cfg w :: rest) : step s = runCommandWord w (s.setHostProgram rest) := by
  simp only [step, h, request_commandAccess]

/-- Everything a step can do: idle, refuse, run a command word, or perform another access. -/
theorem step_cases (s : State) :
    (s.hostProgram = [] ∧ step s = .next s) ∨
    (∃ a rest, s.hostProgram = a :: rest ∧
      ((∃ r, request s.cfg a = .error r ∧ step s = .refused r) ∨
       (∃ w, request s.cfg a = .ok (.writeReg .cmd w) ∧ step s = runCommandWord w (s.setHostProgram rest)) ∨
       (∃ q, request s.cfg a = .ok q ∧ (∀ w, q ≠ .writeReg .cmd w) ∧
          step s = .next (perform (s.setHostProgram rest) q)))) := by
  cases hp : s.hostProgram with
  | nil => left; exact ⟨rfl, by simp [step, hp]⟩
  | cons a rest =>
    right
    refine ⟨a, rest, rfl, ?_⟩
    cases hr : request s.cfg a with
    | error r => left; exact ⟨r, rfl, by simp [step, hp, hr]⟩
    | ok q =>
      right
      by_cases hq : ∃ w, q = .writeReg .cmd w
      · obtain ⟨w, rfl⟩ := hq
        left; exact ⟨w, rfl, by simp [step, hp, hr]⟩
      · right
        refine ⟨q, rfl, fun w h => hq ⟨w, h⟩, ?_⟩
        rcases q with r | ⟨r, v⟩ | ⟨b, i⟩ | ⟨b, i, v⟩ <;> try simp [step, hp, hr]
        cases r <;> first | rfl | exact absurd ⟨v, rfl⟩ hq

end Sys2Proof.Machine
end

