-- ==== Sys2Proof/Laws/Frames.lean ====
section
/-!
SUPPORT. What the frame functions and the decoders' stages do, each said once on a frame written as its parts.
-/

namespace Sys2Proof.Machine

/-! ### Bytes and words -/

theorem le16_toNat (lo hi : Byte) : (le16 lo hi).toNat = lo.toNat + 256 * hi.toNat := by
  have hl := lo.isLt
  have hh := hi.isLt
  have e : hi.toNat <<< 8 = 2 ^ 8 * hi.toNat := by rw [Nat.shiftLeft_eq, Nat.mul_comm]
  simp only [le16, zext16, BitVec.truncate_eq_setWidth, BitVec.toNat_or, BitVec.toNat_shiftLeft, BitVec.toNat_setWidth]
  rw [Nat.mod_eq_of_lt (show lo.toNat < 2 ^ 16 by omega), Nat.mod_eq_of_lt (show hi.toNat < 2 ^ 16 by omega), e,
    Nat.mod_eq_of_lt (show 2 ^ 8 * hi.toNat < 2 ^ 16 by omega), Nat.or_comm, ← Nat.two_pow_add_eq_or_of_lt hl]
  omega

theorem lo8_toNat (w : Word) : (lo8 w).toNat = w.toNat % 256 := by
  simp [lo8, BitVec.extractLsb'_toNat]

theorem hi8_toNat (w : Word) : (hi8 w).toNat = w.toNat / 256 := by
  have := w.isLt
  simp only [hi8, BitVec.extractLsb'_toNat, Nat.shiftRight_eq_div_pow]
  omega

@[simp] theorem le16_lo8_hi8 (w : Word) : le16 (lo8 w) (hi8 w) = w :=
  BitVec.eq_of_toNat_eq (by rw [le16_toNat, lo8_toNat, hi8_toNat]; omega)

/-! ### RTU frames -/

theorem rtuFrame_eq (a f : Byte) (p : List Byte) :
    rtuFrame a f p = a :: f :: (p ++ [lo8 (crc16 (a :: f :: p)), hi8 (crc16 (a :: f :: p))]) := by
  simp [rtuFrame]

@[simp] theorem length_rtuFrame (a f : Byte) (p : List Byte) : (rtuFrame a f p).length = p.length + 4 := by
  simp [rtuFrame_eq]

/-- Every byte string of at least 4 bytes is an address, a function, a payload and two CRC bytes. -/
theorem exists_rtu_parts {f : List Byte} (h : 4 ≤ f.length) :
    ∃ a fc p lo hi, f = a :: fc :: (p ++ [lo, hi]) := by
  match f, h with
  | a :: fc :: rest, h =>
    simp only [List.length_cons] at h
    refine ⟨a, fc, rest.take (rest.length - 2), rest[rest.length - 2], rest[rest.length - 1], ?_⟩
    congr 2
    conv_lhs => rw [← List.take_append_drop (rest.length - 2) rest]
    congr 1
    apply List.ext_getElem
    · simp; omega
    · intro i h₁ h₂
      simp only [List.length_cons, List.length_nil] at h₂
      rcases (show i = 0 ∨ i = 1 by omega) with rfl | rfl
      · simp
      · simp; congr 1; omega

/-- The checksum stage of RTU_DECODE on a frame written as its parts (41_rtu_codec.md R145). -/
theorem rtuCheckFrame_parts (a f lo hi : Byte) (p : List Byte) (s : State) :
    rtuCheckFrame (a :: f :: (p ++ [lo, hi])) s =
      let kept := (s.setCrc (crc16 (a :: f :: p))).setRxchk (le16 lo hi)
      if crc16 (a :: f :: p) ≠ le16 lo hi then raise .checksumMismatch kept else deliver a f p kept := by
  have h₁ : slice (a :: f :: (p ++ [lo, hi])) 0 (p.length + 4 - 2) = a :: f :: p := by
    simp [slice]
  have h₂ : slice (a :: f :: (p ++ [lo, hi])) 2 (p.length + 4 - 2) = p := by
    simp [slice]
  have h₃ : byteAt (a :: f :: (p ++ [lo, hi])) (p.length + 4 - 2) = lo := by
    rw [show p.length + 4 - 2 = p.length + 2 by omega]; simp [byteAt]
  have h₄ : byteAt (a :: f :: (p ++ [lo, hi])) (p.length + 4 - 1) = hi := by
    rw [show p.length + 4 - 1 = p.length + 1 + 2 by omega]; simp [byteAt]
  have hl : (a :: f :: (p ++ [lo, hi])).length = p.length + 4 := by simp
  simp only [rtuCheckFrame, hl, h₁, h₂, h₃, h₄]
  rfl

/-- RTU_DECODE past its length checks, on the parts of the frame it reads. -/
theorem execRtuDecode_parts {s : State} {a f lo hi : Byte} {p : List Byte} (hn : s.flen.toNat = p.length + 4)
    (hle : s.flen.toNat ≤ s.cfg.fbufSize) (hf : s.fbufBytes s.flen.toNat = a :: f :: (p ++ [lo, hi])) :
    execRtuDecode s =
      let kept := ((s.useDraws s.flen.toNat).setCrc (crc16 (a :: f :: p))).setRxchk (le16 lo hi)
      if crc16 (a :: f :: p) ≠ le16 lo hi then raise .checksumMismatch kept else deliver a f p kept := by
  rw [execRtuDecode, if_neg (by omega), if_neg (by omega), hf, rtuCheckFrame_parts]

/-! ### Hex characters and ASCII frames -/

theorem isHex_hexChar (v : BitVec 4) : isHex (hexChar v) = true := by
  revert v; decide

theorem hexVal_hexChar (v : BitVec 4) : hexVal (hexChar v) = v.zeroExtend 8 := by
  revert v; decide

theorem hexVal_lt (ch : Byte) (h : isHex ch = true) : (hexVal ch).toNat < 16 := by
  revert ch; decide

/-- The two characters of a byte decode to it. -/
theorem hexVal_hex2 (b : Byte) :
    hexVal (hexChar (b.extractLsb' 4 4)) * 16 + hexVal (hexChar (b.extractLsb' 0 4)) = b := by
  rw [hexVal_hexChar, hexVal_hexChar]; revert b; decide

theorem hexString_cons (b : Byte) (bs : List Byte) :
    hexString (b :: bs) = hexChar (b.extractLsb' 4 4) :: hexChar (b.extractLsb' 0 4) :: hexString bs := by
  simp [hexString, hex2]

/-- The number of bytes of a string of hex characters. -/
theorem length_hexBytes : ∀ cs : List Byte, (hexBytes cs).length = cs.length / 2
  | [] => rfl
  | [_] => by simp [hexBytes]
  | _ :: _ :: cs => by simp only [hexBytes, List.length_cons, length_hexBytes cs]; omega

theorem asciiFrame_eq (a f : Byte) (p : List Byte) :
    asciiFrame a f p = 0x3A :: (hexString (a :: f :: (p ++ [lrc (a :: f :: p)])) ++ [0x0D, 0x0A]) := by
  simp [asciiFrame]

/-- A string of at least 3 characters with the markers of R173 is ':', the characters between, CR LF. -/
theorem ascii_markers_iff {f : List Byte} (h : 3 ≤ f.length) :
    (byteAt f 0 = 0x3A ∧ byteAt f (f.length - 2) = 0x0D ∧ byteAt f (f.length - 1) = 0x0A) ↔
      f = 0x3A :: (slice f 1 (f.length - 2) ++ [0x0D, 0x0A]) := by
  match f, h with
  | a :: rest, h =>
    simp only [List.length_cons] at h
    have hs : slice (a :: rest) 1 (rest.length + 1 - 2) = rest.take (rest.length - 2) := by
      simp only [slice, List.drop_succ_cons, List.drop_zero]; congr 1
    have hd : rest.drop (rest.length - 2) = [rest[rest.length - 2], rest[rest.length - 1]] := by
      apply List.ext_getElem
      · simp; omega
      · intro i h₁ h₂
        simp only [List.length_cons, List.length_nil] at h₂
        rcases (show i = 0 ∨ i = 1 by omega) with rfl | rfl
        · simp
        · simp; congr 1; omega
    have h₂ : byteAt (a :: rest) (rest.length + 1 - 2) = rest[rest.length - 2] := by
      rw [show rest.length + 1 - 2 = rest.length - 2 + 1 by omega]
      simp [byteAt, show rest.length - 2 < rest.length by omega]
    have h₃ : byteAt (a :: rest) (rest.length + 1 - 1) = rest[rest.length - 1] := by
      rw [show rest.length + 1 - 1 = rest.length - 1 + 1 by omega]
      simp [byteAt, show rest.length - 1 < rest.length by omega]
    rw [List.length_cons, hs, h₂, h₃]
    constructor
    · rintro ⟨h0, h1, h2⟩
      have h0 : a = 0x3A := h0
      rw [h0, ← h1, ← h2, ← hd, List.take_append_drop]
    · intro he
      have he' := List.cons.inj he
      have h4 : rest.drop (rest.length - 2) = [0x0D, 0x0A] := by
        conv_lhs => rw [he'.2]
        rw [List.drop_append_of_le_length (by simp), List.drop_of_length_le (by simp)]
        simp
      rw [hd] at h4
      have h5 := List.cons.inj h4
      exact ⟨he'.1, h5.1, (List.cons.inj h5.2).1⟩

/-- ASCII_DECODE's character stage on a marked frame (42_ascii_codec.md R185). -/
theorem asciiCheckFrame_marked (mid : List Byte) (s : State) :
    asciiCheckFrame (0x3A :: (mid ++ [0x0D, 0x0A])) s =
      if mid.all isHex = false then raise .hexDecodeError s
      else if mid.length % 2 = 1 then raise .hexDecodeError s
      else asciiCheckBytes (hexBytes mid) s := by
  have hl : ((0x3A : Byte) :: (mid ++ [0x0D, 0x0A])).length = mid.length + 3 := by simp
  have hs : slice ((0x3A : Byte) :: (mid ++ [0x0D, 0x0A])) 1 (mid.length + 3 - 2) = mid := by simp [slice]
  have hm := (ascii_markers_iff (f := (0x3A : Byte) :: (mid ++ [0x0D, 0x0A])) (by simp)).mpr (by rw [hl, hs])
  rw [hl] at hm
  simp only [asciiCheckFrame, hl, hs]
  rw [if_neg (by rintro (h | h | h); exacts [h hm.1, h hm.2.1, h hm.2.2])]

/-- ASCII_DECODE's byte stage on decoded bytes written as their parts (R185). -/
theorem asciiCheckBytes_parts (a f l : Byte) (p : List Byte) (s : State) :
    asciiCheckBytes (a :: f :: (p ++ [l])) s =
      let kept := (s.setLsum (lsum (a :: f :: p))).setRxchk (zext16 l)
      if lrc (a :: f :: p) ≠ l then raise .checksumMismatch kept else deliver a f p kept := by
  have hl : (a :: f :: (p ++ [l])).length = p.length + 3 := by simp
  have h₁ : slice (a :: f :: (p ++ [l])) 0 (p.length + 3 - 1) = a :: f :: p := by simp [slice]
  have h₂ : slice (a :: f :: (p ++ [l])) 2 (p.length + 3 - 1) = p := by simp [slice]
  have h₃ : byteAt (a :: f :: (p ++ [l])) (p.length + 3 - 1) = l := by
    rw [show p.length + 3 - 1 = p.length + 2 by omega]; simp [byteAt]
  simp only [asciiCheckBytes, hl, h₁, h₂, h₃]
  rw [if_neg (by omega)]
  rfl

/-- ASCII_DECODE past its length and marker checks. -/
theorem execAsciiDecode_marked {s : State} {mid : List Byte} (hn : s.flen.toNat = mid.length + 3)
    (hle : s.flen.toNat ≤ s.cfg.fbufSize) (hf : s.fbufBytes s.flen.toNat = 0x3A :: (mid ++ [0x0D, 0x0A])) :
    execAsciiDecode s =
      if mid.all isHex = false then raise .hexDecodeError (s.useDraws s.flen.toNat)
      else if mid.length % 2 = 1 then raise .hexDecodeError (s.useDraws s.flen.toNat)
      else asciiCheckBytes (hexBytes mid) (s.useDraws s.flen.toNat) := by
  rw [execAsciiDecode, if_neg (by omega), if_neg (by omega), hf, asciiCheckFrame_marked]

end Sys2Proof.Machine
end

