-- ==== Sys2Proof/Laws/Exec.lean ====
section
/-!
SUPPORT. Everything each command with a length check or a frame can do, as named updates of the state, said once. The
other commands are one update each, by definition.
-/

namespace Sys2Proof.Machine

/-- CRC_FBUF (40_checksum.md R106). -/
theorem execCrcFbuf_cases (s : State) :
    (s.cfg.fbufSize < s.flen.toNat ∧ execCrcFbuf s = .next (s.setStatus (errorStatus .overflow))) ∨
    (s.flen.toNat ≤ s.cfg.fbufSize ∧ execCrcFbuf s =
      .next (((s.useDraws s.flen.toNat).setCrc (crc16 (s.fbufBytes s.flen.toNat))).setStatus okStatus)) := by
  by_cases h : s.flen.toNat > s.cfg.fbufSize
  · exact .inl ⟨h, by rw [execCrcFbuf, if_pos h, raise_eq]⟩
  · exact .inr ⟨by omega, by rw [execCrcFbuf, if_neg h, succeed_eq]⟩

/-- LRC_FBUF (R112). -/
theorem execLrcFbuf_cases (s : State) :
    (s.cfg.fbufSize < s.flen.toNat ∧ execLrcFbuf s = .next (s.setStatus (errorStatus .overflow))) ∨
    (s.flen.toNat ≤ s.cfg.fbufSize ∧ execLrcFbuf s =
      .next (((s.useDraws s.flen.toNat).setLsum (lsum (s.fbufBytes s.flen.toNat))).setStatus okStatus)) := by
  by_cases h : s.flen.toNat > s.cfg.fbufSize
  · exact .inl ⟨h, by rw [execLrcFbuf, if_pos h, raise_eq]⟩
  · exact .inr ⟨by omega, by rw [execLrcFbuf, if_neg h, succeed_eq]⟩

/-- RTU_ENCODE (41_rtu_codec.md R141). -/
theorem execRtuEncode_cases (s : State) :
    ((s.cfg.pbufSize < s.plen.toNat ∨ s.cfg.fbufSize < s.plen.toNat + 4) ∧
      execRtuEncode s = .next (s.setStatus (errorStatus .overflow))) ∨
    (s.plen.toNat ≤ s.cfg.pbufSize ∧ s.plen.toNat + 4 ≤ s.cfg.fbufSize ∧ execRtuEncode s =
      .next ((((s.useDraws s.plen.toNat).setFrame (rtuFrame s.slave s.func (s.pbufBytes s.plen.toNat))).setCrc
        (crc16 (s.slave :: s.func :: s.pbufBytes s.plen.toNat))).setStatus okStatus)) := by
  by_cases h₁ : s.plen.toNat > s.cfg.pbufSize
  · exact .inl ⟨.inl h₁, by rw [execRtuEncode, if_pos h₁, raise_eq]⟩
  · by_cases h₂ : s.plen.toNat + 4 > s.cfg.fbufSize
    · exact .inl ⟨.inr h₂, by rw [execRtuEncode, if_neg h₁, if_pos h₂, raise_eq]⟩
    · exact .inr ⟨by omega, by omega, by rw [execRtuEncode, if_neg h₁, if_neg h₂, succeed_eq]; rfl⟩

/-- ASCII_ENCODE (42_ascii_codec.md R181). -/
theorem execAsciiEncode_cases (s : State) :
    ((s.cfg.pbufSize < s.plen.toNat ∨ s.cfg.fbufSize < 2 * s.plen.toNat + 9) ∧
      execAsciiEncode s = .next (s.setStatus (errorStatus .overflow))) ∨
    (s.plen.toNat ≤ s.cfg.pbufSize ∧ 2 * s.plen.toNat + 9 ≤ s.cfg.fbufSize ∧ execAsciiEncode s =
      .next ((((s.useDraws s.plen.toNat).setFrame (asciiFrame s.slave s.func (s.pbufBytes s.plen.toNat))).setLsum
        (lsum (s.slave :: s.func :: s.pbufBytes s.plen.toNat))).setStatus okStatus)) := by
  by_cases h₁ : s.plen.toNat > s.cfg.pbufSize
  · exact .inl ⟨.inl h₁, by rw [execAsciiEncode, if_pos h₁, raise_eq]⟩
  · by_cases h₂ : 2 * s.plen.toNat + 9 > s.cfg.fbufSize
    · exact .inl ⟨.inr h₂, by rw [execAsciiEncode, if_neg h₁, if_pos h₂, raise_eq]⟩
    · exact .inr ⟨by omega, by omega, by rw [execAsciiEncode, if_neg h₁, if_neg h₂, succeed_eq]; rfl⟩

/-- What a decoder can leave once its checksum stage has been reached with the diagnostic writes in `kept`
(60_exceptions.md R222, R224): an error with nothing more written, an exception response with SLAVE and FUNC, or
success. -/
inductive DecoderEnd (kept : State) : Host.Outcome State Fault Refusal → Prop where
  | error (k : FrameError) (hk : k ∈ [.truncated, .checksumMismatch, .overflow]) : DecoderEnd kept (.next (kept.setStatus (errorStatus k)))
  | exceptionResponse (a f code : Byte) (h7 : f.getLsbD 7 = true) :
      DecoderEnd kept (.next ((kept.setAddress a f).setStatus (errorStatus (.exceptionResponse code))))
  | success (a f : Byte) (p : List Byte) (h7 : f.getLsbD 7 = false) (hp : p.length ≤ kept.cfg.pbufSize) :
      DecoderEnd kept (.next (((kept.setAddress a f).setPayload p).setStatus okStatus))

theorem deliver_end (a f : Byte) (p : List Byte) (s : State) : DecoderEnd s (deliver a f p s) := by
  rcases deliver_cases a f p s with ⟨_, _, h⟩ | ⟨code, _, h7, _, h⟩ | ⟨_, _, h⟩ | ⟨h7, hp, h⟩ <;> rw [h]
  · exact .error _ (by simp)
  · exact .exceptionResponse a f code h7
  · exact .error _ (by simp)
  · exact .success a f p h7 hp

/-- RTU_DECODE: an error of its length checks with nothing but STATUS written, or an end with CRC and RXCHK kept
(41_rtu_codec.md R145). -/
theorem execRtuDecode_cases (s : State) :
    (∃ k ∈ [FrameError.overflow, .truncated], execRtuDecode s = .next (s.setStatus (errorStatus k))) ∨
    ∃ c rx, DecoderEnd (((s.useDraws s.flen.toNat).setCrc c).setRxchk rx) (execRtuDecode s) := by
  by_cases h₁ : s.flen.toNat > s.cfg.fbufSize
  · exact .inl ⟨.overflow, by simp, by rw [execRtuDecode, if_pos h₁, raise_eq]⟩
  by_cases h₂ : s.flen.toNat < 4
  · exact .inl ⟨.truncated, by simp, by rw [execRtuDecode, if_neg h₁, if_pos h₂, raise_eq]⟩
  right
  obtain ⟨a, f, p, lo, hi, hf⟩ := exists_rtu_parts (f := s.fbufBytes s.flen.toNat)
    (by simp only [State.fbufBytes, Memory.length_readAll]; omega)
  have hn : s.flen.toNat = p.length + 4 := by
    have := congrArg List.length hf
    simpa [State.fbufBytes] using this
  refine ⟨crc16 (a :: f :: p), le16 lo hi, ?_⟩
  rw [execRtuDecode_parts hn (by omega) hf]
  dsimp only
  split
  · exact .error _ (by simp)
  · exact deliver_end _ _ _ _

/-- Every byte string of at least 3 bytes is an address, a function, a payload and an LRC byte. -/
theorem exists_ascii_parts {d : List Byte} (h : 3 ≤ d.length) : ∃ a f p l, d = a :: f :: (p ++ [l]) := by
  match d, h with
  | a :: f :: rest, h =>
    simp only [List.length_cons] at h
    have hne : rest ≠ [] := by rintro rfl; simp at h
    exact ⟨a, f, rest.dropLast, rest.getLast hne, by rw [List.dropLast_append_getLast hne]⟩

/-- ASCII_DECODE: an error before its checksum stage with nothing but STATUS written (and draws used), or an end with
LSUM and RXCHK kept (42_ascii_codec.md R185). -/
theorem execAsciiDecode_cases (s : State) :
    (∃ n, (n = 0 ∨ n = s.flen.toNat) ∧ ∃ k ∈ [FrameError.overflow, .framingError, .hexDecodeError, .truncated],
      execAsciiDecode s = .next ((s.useDraws n).setStatus (errorStatus k))) ∨
    ∃ v rx, DecoderEnd (((s.useDraws s.flen.toNat).setLsum v).setRxchk rx) (execAsciiDecode s) := by
  by_cases h₁ : s.flen.toNat > s.cfg.fbufSize
  · exact .inl ⟨0, .inl rfl, .overflow, by simp, by rw [execAsciiDecode, if_pos h₁]; rfl⟩
  by_cases h₂ : s.flen.toNat < 3
  · exact .inl ⟨0, .inl rfl, .framingError, by simp, by rw [execAsciiDecode, if_neg h₁, if_pos h₂]; rfl⟩
  have he : execAsciiDecode s = asciiCheckFrame (s.fbufBytes s.flen.toNat) (s.useDraws s.flen.toNat) := by
    rw [execAsciiDecode, if_neg h₁, if_neg h₂]
  rw [he]
  unfold asciiCheckFrame
  dsimp only
  split
  · exact .inl ⟨_, .inr rfl, .framingError, by simp, rfl⟩
  split
  · exact .inl ⟨_, .inr rfl, .hexDecodeError, by simp, rfl⟩
  split
  · exact .inl ⟨_, .inr rfl, .hexDecodeError, by simp, rfl⟩
  generalize hexBytes _ = d
  by_cases hd : d.length < 3
  · exact .inl ⟨_, .inr rfl, .truncated, by simp, by rw [asciiCheckBytes, if_pos hd, raise_eq]⟩
  · right
    obtain ⟨a, f, p, l, rfl⟩ := exists_ascii_parts (d := d) (by omega)
    refine ⟨lsum (a :: f :: p), zext16 l, ?_⟩
    rw [asciiCheckBytes_parts]
    dsimp only
    split
    · exact .error _ (by simp)
    · exact deliver_end _ _ _ _

end Sys2Proof.Machine
end

