-- ==== Sys2Proof/Laws/HostPort.lean ====
section
/-!
SUPPORT. What the host port does with an access at an offset of the window, said once per kind of access.
-/

namespace Sys2Proof

/-- The parameter rules of 00_scope.md R7 as inequalities. -/
theorem Params.legal_iff (p : Params) : p.legal = true ↔
    1 ≤ p.pbufSize ∧ p.pbufSize ≤ 4092 ∧ 4 ≤ p.fbufSize ∧ p.fbufSize ≤ 4096 ∧ p.pbufSize + 4 ≤ p.fbufSize := by
  simp [Params.legal, and_assoc]

namespace Machine

theorem windowOffset_base_add (p : Params) {off : Nat} (h : off < 0x4000) :
    windowOffset p (p.sfcBase + off) = .ok off := by
  rw [windowOffset, if_neg (by simp [windowSize]; omega)]; simp

/-- An address outside the window, or an offset inside it (20_memory.md R50). -/
theorem windowOffset_cases (p : Params) (a : Nat) :
    ((a < p.sfcBase ∨ p.sfcBase + 0x4000 ≤ a) ∧ windowOffset p a = .error (.outsideWindow a)) ∨
    ∃ off, a = p.sfcBase + off ∧ off < 0x4000 ∧ windowOffset p a = .ok off := by
  by_cases h : a < p.sfcBase ∨ p.sfcBase + 0x4000 ≤ a
  · exact .inl ⟨h, by rw [windowOffset, windowSize, if_pos h]⟩
  · refine .inr ⟨a - p.sfcBase, by omega, by omega, ?_⟩
    rw [windowOffset, windowSize, if_neg h]

theorem request_read32 (p : Params) {off : Nat} (h : off < 0x4000) :
    request p (.read32 (p.sfcBase + off)) = (registerAt off).map .readReg := by
  simp only [request, windowOffset_base_add p h, bind, Except.bind, Except.map]
  cases registerAt off <;> rfl

theorem request_write32 (p : Params) {off : Nat} (v : HostWord) (h : off < 0x4000) :
    request p (.write32 (p.sfcBase + off) v) = (registerAt off).map (.writeReg · v) := by
  simp only [request, windowOffset_base_add p h, bind, Except.bind, Except.map]
  cases registerAt off <;> rfl

theorem request_read8 (p : Params) {off : Nat} (h : off < 0x4000) :
    request p (.read8 (p.sfcBase + off)) = (bufferByteAt p off).map fun bi => .readByte bi.1 bi.2 := by
  simp only [request, windowOffset_base_add p h, bind, Except.bind, Except.map]
  cases bufferByteAt p off <;> rfl

theorem request_write8 (p : Params) {off : Nat} (v : Byte) (h : off < 0x4000) :
    request p (.write8 (p.sfcBase + off) v) = (bufferByteAt p off).map fun bi => .writeByte bi.1 bi.2 v := by
  simp only [request, windowOffset_base_add p h, bind, Except.bind, Except.map]
  cases bufferByteAt p off <;> rfl

/-- Every register sits at its offset (10_state.md R20). -/
@[simp] theorem registerAt_regOffset (r : Reg) : registerAt (regOffset r) = .ok r := by cases r <;> rfl

theorem bufferByteAt_pbuf {p : Params} {i : Nat} (hl : p.legal = true) (h : i < p.pbufSize) :
    bufferByteAt p (0x1000 + i) = .ok (.pbuf, i) := by
  rw [Params.legal_iff] at hl
  rw [bufferByteAt, if_neg (by omega), if_neg (by omega), if_pos (by omega), if_pos (by omega)]; simp

theorem bufferByteAt_fbuf {p : Params} {i : Nat} (hl : p.legal = true) (h : i < p.fbufSize) :
    bufferByteAt p (0x2000 + i) = .ok (.fbuf, i) := by
  rw [Params.legal_iff] at hl
  rw [bufferByteAt, if_neg (by omega), if_neg (by omega), if_neg (by omega), if_pos (by omega), if_pos (by omega)]
  simp

/-- A buffer index the port accepts is below the buffer's size (20_memory.md R53). -/
theorem bufferByteAt_index {p : Params} {off i : Nat} {b : Buffer} (h : bufferByteAt p off = .ok (b, i)) :
    i < bufferSize p b := by
  unfold bufferByteAt at h
  split_ifs at h <;> simp only [Except.ok.injEq, Prod.mk.injEq] at h
  all_goals obtain ⟨rfl, rfl⟩ := h; assumption

end Machine

end Sys2Proof
end

