-- ==== Sys2Proof/Laws/PerInstr.lean ====
section
/-!
SUPPORT. Facts about every instruction as syntax, one lemma per constructor. `EncodeLegal`: the encoder writes only
words that are legal by the three grounds of 30_encoding.md R72.
-/

namespace Sys2Proof.Laws

/-- The word of `i` is legal (R72), whatever its IMM8. -/
def EncodeLegal.Statement (i : Instr) : Prop := commandWordLegal (encode i) = true

namespace EncodeLegal

theorem crcInit : Statement .crcInit := by unfold Statement; decide
theorem crcByte (b : Byte) : Statement (.crcByte b) := by unfold Statement; revert b; decide +kernel
theorem crcFbuf : Statement .crcFbuf := by unfold Statement; decide
theorem lrcInit : Statement .lrcInit := by unfold Statement; decide
theorem lrcByte (b : Byte) : Statement (.lrcByte b) := by unfold Statement; revert b; decide +kernel
theorem lrcFbuf : Statement .lrcFbuf := by unfold Statement; decide
theorem rtuEncode : Statement .rtuEncode := by unfold Statement; decide
theorem rtuDecode : Statement .rtuDecode := by unfold Statement; decide
theorem asciiEncode : Statement .asciiEncode := by unfold Statement; decide
theorem asciiDecode : Statement .asciiDecode := by unfold Statement; decide
theorem softReset : Statement .softReset := by unfold Statement; decide

end EncodeLegal

end Sys2Proof.Laws
end

