-- ==== Sys2Proof/Machine/HostProgram.lean ====
section
/-!
DEFINITION. The host-program syntax of 30_encoding.md R74 and the pseudo-operations of R75, as the accesses they
stand for. `p` is the block's parameters: they give the window's base address.
-/

namespace Sys2Proof.Machine.HostProgram

/-- `wr REG, v` (R74). -/
def wr (p : Params) (r : Reg) (v : HostWord) : HostAccess := .write32 (p.sfcBase + regOffset r) v

/-- `rd REG` (R74). -/
def rd (p : Params) (r : Reg) : HostAccess := .read32 (p.sfcBase + regOffset r)

/-- `wrb PBUF[i], b` and `wrb FBUF[i], b` (R74). -/
def wrb (p : Params) (buf : Buffer) (i : Nat) (b : Byte) : HostAccess := .write8 (p.sfcBase + bufferBase buf + i) b

/-- `rdb PBUF[i]` and `rdb FBUF[i]` (R74). -/
def rdb (p : Params) (buf : Buffer) (i : Nat) : HostAccess := .read8 (p.sfcBase + bufferBase buf + i)

/-- `cmd w` (R74): `wr CMD, w`. -/
def cmd (p : Params) (w : HostWord) : HostAccess := wr p .cmd w

/-- The command mnemonics `crc.init`, `crc.byte b`, ... `sreset` (R74): `cmd` with the command's word. -/
def command (p : Params) (i : Instr) : HostAccess := cmd p (encode i)

/-- `crc.bytes b0, ..., bk` (R75). -/
def crcBytes (p : Params) (bs : List Byte) : List HostAccess := bs.map fun b => command p (.crcByte b)

/-- `lrc.bytes b0, ..., bk` (R75). -/
def lrcBytes (p : Params) (bs : List Byte) : List HostAccess := bs.map fun b => command p (.lrcByte b)

/-- `wrb BUF[i], b0`, `wrb BUF[i+1], b1`, ... -/
def storeBytes (p : Params) (buf : Buffer) (i : Nat) : List Byte → List HostAccess
  | [] => []
  | b :: bs => wrb p buf i b :: storeBytes p buf (i + 1) bs

/-- `ld.pbuf b0, ..., b(n-1)` (R75). -/
def ldPbuf (p : Params) (bs : List Byte) : List HostAccess :=
  storeBytes p .pbuf 0 bs ++ [wr p .plen (BitVec.ofNat 32 bs.length)]

/-- `ld.fbuf b0, ..., b(n-1)` (R75). -/
def ldFbuf (p : Params) (bs : List Byte) : List HostAccess :=
  storeBytes p .fbuf 0 bs ++ [wr p .flen (BitVec.ofNat 32 bs.length)]

/-- The ASCII codes of a string's characters (R75). -/
def asciiCodes (text : String) : List Byte := text.toList.map fun ch => BitVec.ofNat 8 ch.toNat

/-- `ld.fbuf.str "text"` (R75). -/
def ldFbufStr (p : Params) (text : String) : List HostAccess := ldFbuf p (asciiCodes text)

/-- `frame.rtu s, f, b0, ..., b(n-1)` (R75). -/
def frameRtu (p : Params) (slave func : Byte) (bs : List Byte) : List HostAccess :=
  [wr p .slave (slave.zeroExtend 32), wr p .func (func.zeroExtend 32)] ++ ldPbuf p bs ++ [command p .rtuEncode]

/-- `frame.ascii s, f, b0, ..., b(n-1)` (R75). -/
def frameAscii (p : Params) (slave func : Byte) (bs : List Byte) : List HostAccess :=
  [wr p .slave (slave.zeroExtend 32), wr p .func (func.zeroExtend 32)] ++ ldPbuf p bs ++ [command p .asciiEncode]

end Sys2Proof.Machine.HostProgram
end

