-- ==== Sys2Proof/Tests/Slice0.lean ====
section
/-!
SUPPORT. Tests against the spec's own vectors (95_test_vectors.md, named V<n> as there) and words written out from
30_encoding.md R73, and a witness for the hypotheses of each statement. No expected value is the model's own answer.
-/

namespace Sys2Proof.Tests

-- One theorem after another: a theorem that waits for the kernel in parallel would hold a thread and its memory.
set_option Elab.async false

open Sys2Proof Sys2Proof.Machine

/-- A reset block whose host has put `f` in FBUF and its length in FLEN. -/
def withFrame (f : List Byte) : State :=
  { State.reset with fbuf := Memory.setAll [] 0 f, flen := BitVec.ofNat 16 f.length }

/-- A reset block whose host has put a slave id, a function code and a payload in place. -/
def withPayload (slave func : Byte) (p : List Byte) : State :=
  { State.reset with slave := slave, func := func, pbuf := Memory.setAll [] 0 p, plen := BitVec.ofNat 16 p.length }

/-- A view of the next state, where there is one. -/
def after {α : Type} (o : Host.Outcome State Fault Refusal) (f : State → α) : Option α :=
  match o with
  | .next t => some (f t)
  | _ => none

theorem exists_next_of_after {o : Host.Outcome State Fault Refusal} {e : BitVec 4}
    (h : after o (fun t => t.status.err) = some e) : ∃ t, o = .next t ∧ t.status.err = e := by
  cases o with
  | next t => exact ⟨t, rfl, Option.some.inj h⟩
  | fault r => cases r
  | refused r => cases h

/-- The frame of V40 and V42c. -/
def v40 : List Byte := [0x11, 0x03, 0x00, 0x6B, 0x00, 0x03, 0x76, 0x87]

/-- The frame of V60 and V67: ":1103006B00037E" CR LF. -/
def v60 : List Byte :=
  [0x3A, 0x31, 0x31, 0x30, 0x33, 0x30, 0x30, 0x36, 0x42, 0x30, 0x30, 0x30, 0x33, 0x37, 0x45, 0x0D, 0x0A]

/-! ### The checks of WellFormed refuse ill-formed terms -/

theorem test_params_pbuf_too_small : Params.legal ⟨0, 0, 513⟩ = false := by decide
theorem test_params_pbuf_too_large : Params.legal ⟨0, 4093, 4096⟩ = false := by decide
theorem test_params_fbuf_too_large : Params.legal ⟨0, 252, 4097⟩ = false := by decide
theorem test_params_frame_does_not_fit : Params.legal ⟨0, 252, 255⟩ = false := by decide
theorem test_params_extremes_legal : Params.legal ⟨0, 1, 5⟩ = true ∧ Params.legal ⟨0, 4092, 4096⟩ = true := by decide
theorem test_word_unassigned : commandWordLegal 0x00000000 = false := by decide
theorem test_word_reserved_bits : commandWordLegal 0x00010002 = false := by decide
theorem test_word_immediate : commandWordLegal 0x00000101 = false := by decide
theorem test_word_legal : commandWordLegal 0x0000CD02 = true := by decide
theorem test_access_other_width : HostAccess.wellFormed Params.standard (.otherWidth 16 0x1000) = false := by decide
theorem test_access_misaligned : HostAccess.wellFormed Params.standard (.read32 0x006) = false := by decide
theorem test_access_register_width : HostAccess.wellFormed Params.standard (.read8 0x004) = false := by decide
theorem test_access_reserved : HostAccess.wellFormed Params.standard (.write32 0x02C 0) = false := by decide
theorem test_access_buffer_end : HostAccess.wellFormed Params.standard (.write8 0x10FC 0) = false := by decide
theorem test_access_below_window : HostAccess.wellFormed ⟨0x4000, 252, 513⟩ (.read32 0x3FFC) = false := by decide
theorem test_access_last_bytes :
    HostAccess.wellFormed Params.standard (.read8 0x10FB) = true ∧
    HostAccess.wellFormed Params.standard (.read8 0x2200) = true := by decide

/-! ### Decoding: the words of R73 -/

theorem test_decode_crc_init : decode 0b00000000000000000000000000000001 = .ok .crcInit := by decide
theorem test_decode_crc_byte : decode 0b00000000000000001100010100000010 = .ok (.crcByte 0xC5) := by decide
theorem test_decode_crc_fbuf : decode 0b00000000000000000000000000000011 = .ok .crcFbuf := by decide
theorem test_decode_lrc_init : decode 0b00000000000000000000000000001000 = .ok .lrcInit := by decide
theorem test_decode_lrc_byte : decode 0b00000000000000000110101100001001 = .ok (.lrcByte 0x6B) := by decide
theorem test_decode_lrc_fbuf : decode 0b00000000000000000000000000001010 = .ok .lrcFbuf := by decide
theorem test_decode_rtu_encode : decode 0b00000000000000000000000000010000 = .ok .rtuEncode := by decide
theorem test_decode_rtu_decode : decode 0b00000000000000000000000000010001 = .ok .rtuDecode := by decide
theorem test_decode_ascii_encode : decode 0b00000000000000000000000000100000 = .ok .asciiEncode := by decide
theorem test_decode_ascii_decode : decode 0b00000000000000000000000000100001 = .ok .asciiDecode := by decide
theorem test_decode_soft_reset : decode 0b00000000000000000000000011111111 = .ok .softReset := by decide
theorem test_decode_table_word : decodeTableWord 32 0x6B09 = some (.lrcByte 0x6B) := by decide
theorem test_encode_lrc_byte : encode (.lrcByte 0xFF) = 0x0000FF09 := by decide

/-! ### The functions: V1 to V10 -/

theorem test_crc16_V1 : crc16 [0x01, 0x03, 0x00, 0x00, 0x00, 0x0A] = 0xCDC5 := by decide +kernel
theorem test_crc16_V2 : crc16 [0x31, 0x32, 0x33, 0x34, 0x35, 0x36, 0x37, 0x38, 0x39] = 0x4B37 := by decide +kernel
theorem test_crc_step_V7 : crcStep 0x1234 0x56 = 0xE993 ∧ crcStep 0x0000 0x80 = 0xA001 := by decide +kernel
theorem test_lrc_V10 : lrc [0xAB, 0xCD, 0xEF] = 0x99 ∧ lrc [0x80, 0x80] = 0x00 := by decide +kernel

/-! ### One step of each command -/

/-- V20: `crc.init` as a whole step. -/
theorem test_crc_init_V20 :
    after (step (State.withFetchWord { State.reset with crc := 0x1234 } 32 0x1))
      (fun t => (t.crc, t.status, t.hostProgram)) = some (0xFFFF, ⟨0, 0⟩, []) := by decide +kernel

/-- V21. -/
theorem test_crc_byte_V21 :
    after (step (State.reset.withFetchWord 32 0x102)) (fun t => (t.crc, t.status)) = some (0x807E, ⟨0, 0⟩) := by decide +kernel

/-- V24. -/
theorem test_crc_fbuf_V24 :
    after (exec .crcFbuf { withFrame [0x01, 0x03, 0x00, 0x00, 0x00, 0x0A] with crc := 0x1234 })
      (fun t => (t.crc, t.status)) = some (0xCDC5, ⟨0, 0⟩) := by decide +kernel

/-- V26. -/
theorem test_crc_fbuf_V26 :
    after (exec .crcFbuf { State.reset with flen := 514, crc := 0x1234 })
      (fun t => (t.crc, t.readReg .status)) = some (0x1234, 0x00000008) := by decide +kernel

/-- V30. -/
theorem test_lrc_init_V30 :
    after (exec .lrcInit { State.reset with lsum := 0x82 }) (fun t => (t.lsum, t.readReg .lrc)) = some (0, 0) := by decide +kernel

/-- V32. -/
theorem test_lrc_byte_V32 :
    after (step (State.withFetchWord { State.reset with lsum := 0x01 } 32 0xFF09)) (fun t => (t.lsum, t.readReg .lrc))
      = some (0, 0) := by decide +kernel

/-- V34: the sum is over the characters. -/
theorem test_lrc_fbuf_V34 :
    after (exec .lrcFbuf (withFrame v60)) (fun t => (t.lsum, t.readReg .lrc)) = some (0x2D, 0xD3) := by decide +kernel

/-- V35. -/
theorem test_lrc_fbuf_V35 :
    after (exec .lrcFbuf { State.reset with flen := 514, lsum := 0x55 })
      (fun t => (t.readReg .status, t.readReg .lrc)) = some (8, 0xAB) := by decide +kernel

/-- V40. -/
theorem test_rtu_encode_V40 :
    after (exec .rtuEncode (withPayload 0x11 0x03 [0x00, 0x6B, 0x00, 0x03]))
      (fun t => (t.fbuf, t.flen, t.crc, t.status)) = some (Memory.setAll [] 0 v40, 8, 0x8776, ⟨0, 0⟩) := by decide +kernel

/-- V41c: the encoder does not treat bit 7 specially. -/
theorem test_rtu_encode_V41c :
    after (exec .rtuEncode (withPayload 0x01 0x83 [0x02])) (fun t => (t.fbufBytes 5, t.flen))
      = some ([0x01, 0x83, 0x02, 0xC0, 0xF1], 5) := by decide +kernel

/-- V42c. -/
theorem test_rtu_decode_V42c :
    after (exec .rtuDecode (withFrame v40)) (fun t => (t.slave, t.func, t.plen, t.pbufBytes 4))
      = some (0x11, 0x03, 4, [0x00, 0x6B, 0x00, 0x03]) := by decide +kernel

/-- V47: an exception response. -/
theorem test_rtu_decode_V47 :
    after (exec .rtuDecode (withFrame [0x01, 0x83, 0x02, 0xC0, 0xF1]))
      (fun t => (t.readReg .status, t.func, t.plen, t.pbuf)) = some (0x00000207, 0x83, 0, []) := by decide +kernel

/-- V60. -/
theorem test_ascii_encode_V60 :
    after (exec .asciiEncode (withPayload 0x11 0x03 [0x00, 0x6B, 0x00, 0x03]))
      (fun t => (t.fbuf, t.flen, t.lsum, t.readReg .lrc)) = some (Memory.setAll [] 0 v60, 17, 0x82, 0x7E) := by decide +kernel

/-- V65: PBUF_SIZE 8, FBUF_SIZE 20; the frame would not fit. -/
theorem test_ascii_encode_V65 :
    after (exec .asciiEncode { State.reset with cfg := ⟨0, 8, 20⟩, plen := 6 }) (fun t => (t.readReg .status, t.flen))
      = some (8, 0) := by decide +kernel

/-- V67b: lower case. -/
theorem test_ascii_decode_V67b :
    after (exec .asciiDecode (withFrame (HostProgram.asciiCodes ":1103006b00037e\r\n")))
      (fun t => (t.readReg .status, t.func, t.pbufBytes 4, t.rxchk))
      = some (0, 0x03, [0x00, 0x6B, 0x00, 0x03], 0x007E) := by decide +kernel

/-- V68n: a payload character changed. -/
theorem test_ascii_decode_V68n :
    after (exec .asciiDecode (withFrame (HostProgram.asciiCodes ":1103006B00047E\r\n")))
      (fun t => (t.readReg .status, t.plen, t.lsum, t.rxchk)) = some (2, 0, 0x83, 0x007E) := by decide +kernel

/-- V80. -/
theorem test_soft_reset_V80 :
    after (exec .softReset { withFrame v40 with crc := 0x8776, lsum := 0x82, slave := 0x11, status := ⟨2, 0⟩ })
      (fun t => (t.crc, t.flen, t.status, t.fbuf)) = some (0xFFFF, 0, ⟨0, 0⟩, (withFrame v40).fbuf) := by decide +kernel

/-! ### Host accesses -/

/-- V81: a stray all-zero write is an illegal command. -/
theorem test_illegal_word_V81 :
    after (step (State.withFetchWord { State.reset with crc := 0x1234 } 32 0)) (fun t => (t.readReg .status, t.crc))
      = some (9, 0x1234) := by decide +kernel

/-- V85: `rd CAPS` in a window at 0x8000. -/
theorem test_read_caps_V85 :
    after (step { State.reset with cfg := ⟨0x8000, 252, 513⟩, hostProgram := [.read32 0x8028] })
      (fun t => t.observations) = some [.word 0x00FC0201] := by decide +kernel

/-- The listing of P2: the accesses `frame.rtu` stands for. -/
theorem test_frame_rtu_listing_P2 :
    HostProgram.frameRtu Params.standard 0x11 0x03 [0x00, 0x6B, 0x00, 0x03] =
      [.write32 0x014 0x11, .write32 0x018 0x03, .write8 0x1000 0x00, .write8 0x1001 0x6B, .write8 0x1002 0x00,
       .write8 0x1003 0x03, .write32 0x01C 4, .write32 0x000 0x00000010] := by decide +kernel

/-- R53: a 32-bit access to a buffer and an access past the end of FBUF are refused, each by its name. -/
theorem test_refused_accesses :
    request Params.standard (.read32 0x2000) = .error (.accessWidth 0x2000) ∧
    request Params.standard (.read8 0x2201) = .error (.bufferIndex .fbuf 513) := by decide +kernel

/-! ### Witnesses: states and operands that meet the hypotheses of the statements, at the edges of their clauses -/

/-- A reset block whose host makes one access. -/
def withAccess (a : HostAccess) : State := { State.reset with hostProgram := [a] }

/-- A reset block with sizes `p` and frame `f` in FBUF. -/
def withSizedFrame (p : Params) (f : List Byte) : State := { withFrame f with cfg := p }

/-- A reset block with `text` in FBUF. -/
def withText (text : String) : State := withFrame (HostProgram.asciiCodes text)

/-- The characters of a frame's text, its markers left out. -/
def chars (text : String) : List Byte := HostProgram.asciiCodes text

theorem witness_StepRunsDecodedCommand :
    (withAccess (.write32 0 0x6B09)).hostProgram = [.write32 State.reset.cfg.sfcBase 0x6B09] ∧
    decode 0x6B09 = .ok (.lrcByte 0x6B) := ⟨rfl, by decide⟩

theorem witness_IllegalWordChangesOnlyStatus :
    (withAccess (.write32 0 0x10002)).hostProgram = [.write32 State.reset.cfg.sfcBase 0x10002] ∧
    commandWordLegal 0x10002 = false := ⟨rfl, by decide⟩

theorem witness_IdleBlockStays : State.reset.hostProgram = [] := rfl

theorem witness_RegisterReadReturnsItsValue :
    State.reset.cfg.legal = true ∧ 252 * 65536 + 513 = State.reset.cfg.pbufSize * 65536 + State.reset.cfg.fbufSize ∧
    (withAccess (.read32 (0 + 0x028))).hostProgram = [.read32 (State.reset.cfg.sfcBase + 0x028)] ∧
    (withAccess (.read32 (0 + 0x000))).hostProgram = [.read32 (State.reset.cfg.sfcBase + 0x000)] := by decide

theorem witness_RegisterWriteStoresItsBits :
    (withAccess (.write32 (0 + 0x004) 0xFFFFFFFF)).hostProgram = [.write32 (State.reset.cfg.sfcBase + 0x004) 0xFFFFFFFF] ∧
    (withAccess (.write32 (0 + 0x028) 0xFFFFFFFF)).hostProgram = [.write32 (State.reset.cfg.sfcBase + 0x028) 0xFFFFFFFF] :=
  ⟨rfl, rfl⟩

theorem witness_BufferWriteStoresOneByte :
    State.reset.cfg.legal = true ∧ 251 < State.reset.cfg.pbufSize ∧ 512 < State.reset.cfg.fbufSize ∧
    (withAccess (.write8 0x10FB 7)).hostProgram = [.write8 (State.reset.cfg.sfcBase + 0x1000 + 251) 7] ∧
    (withAccess (.write8 0x2200 7)).hostProgram = [.write8 (State.reset.cfg.sfcBase + 0x2000 + 512) 7] := by decide

theorem witness_BufferReadReturnsByteOrDraw :
    State.reset.cfg.legal = true ∧ 251 < State.reset.cfg.pbufSize ∧ 512 < State.reset.cfg.fbufSize ∧
    (withAccess (.read8 0x10FB)).hostProgram = [.read8 (State.reset.cfg.sfcBase + 0x1000 + 251)] ∧
    (withAccess (.read8 0x2200)).hostProgram = [.read8 (State.reset.cfg.sfcBase + 0x2000 + 512)] := by decide

theorem witness_OperandBytesAreWrittenOnesOrDraws : (0 : Nat) < 1 ∧ (512 : Nat) < 513 := by decide

theorem witness_RefusesExactlyTheAccessesOutsideTheSpec :
    (withAccess (.read8 0x10FB)).cfg.legal = true ∧
    HostAccess.wellFormed Params.standard (.read8 0x10FB) = true ∧
    HostAccess.wellFormed Params.standard (.read8 0x10FC) = false := by decide

theorem witness_EverySafeRunEnds :
    ({ State.reset with hostProgram := [.write32 0 0x1, .read32 8, .read8 0x2200] } : State).cfg.legal = true ∧
    HostSafe { State.reset with hostProgram := [.write32 0 0x1, .read32 8, .read8 0x2200] } := by
  refine ⟨by decide, fun a h => ?_⟩
  simp only [List.mem_cons, List.not_mem_nil, or_false] at h
  rcases h with rfl | rfl | rfl <;> decide

theorem witness_OnlyCommandsWriteStatusAndRxchk :
    (∀ w, HostAccess.write32 0x024 5 ≠ .write32 (withAccess (.write32 0x024 5)).cfg.sfcBase w) ∧
    ∃ t, step (withAccess (.write32 0x024 5)) = .next t :=
  ⟨fun w h => by injection h with h₁; exact absurd h₁ (by decide), _, rfl⟩

theorem witness_ResetSatisfiesInvariant : Params.legal ⟨0, 1, 5⟩ = true ∧ Params.legal ⟨7, 4092, 4096⟩ = true := by
  decide

theorem witness_StepKeepsInvariant :
    StateInv (withAccess (.write32 0 0xFF)) ∧ ∃ t, step (withAccess (.write32 0 0xFF)) = .next t :=
  ⟨⟨by decide, by decide, by decide, by decide, by decide, by decide⟩, _, rfl⟩

theorem witness_StepKeepsParametersAndCaps : ∃ t, step (withAccess (.write8 0x10FB 9)) = .next t := ⟨_, rfl⟩

theorem witness_CrcFbufComputesFromInitialValue :
    ({ State.reset with flen := 514 } : State).cfg.fbufSize < ({ State.reset with flen := 514 } : State).flen.toNat ∧
    ({ State.reset with flen := 513 } : State).flen.toNat ≤ ({ State.reset with flen := 513 } : State).cfg.fbufSize := by
  decide

theorem witness_LrcFbufSumsFromZero :
    ({ State.reset with flen := 514 } : State).cfg.fbufSize < ({ State.reset with flen := 514 } : State).flen.toNat ∧
    ({ State.reset with flen := 0 } : State).flen.toNat ≤ ({ State.reset with flen := 0 } : State).cfg.fbufSize := by
  decide

theorem witness_StreamedCrcEqualsBufferedCrc :
    [1, 2].length ≤ (withFrame [1, 2]).cfg.fbufSize ∧ (withFrame [1, 2]).flen.toNat = [1, 2].length ∧
    (withFrame [1, 2]).fbuf.Holds 0 [1, 2] := by
  unfold Memory.Holds; decide

theorem witness_StreamedLrcEqualsBufferedLrc :
    ({ State.reset with lsum := 3 } : State).lsum = lsum [1, 2] ∧
    [1, 2].length ≤ (withFrame [1, 2]).cfg.fbufSize ∧ (withFrame [1, 2]).flen.toNat = [1, 2].length ∧
    (withFrame [1, 2]).fbuf.Holds 0 [1, 2] := by
  unfold Memory.Holds; decide

/-- The second disjunct of the OVERFLOW clause needs sizes R7 rules out. -/
theorem witness_RtuEncodeBuildsFrame :
    State.reset.cfg.pbufSize < ({ State.reset with plen := 253 } : State).plen.toNat ∧
    (Params.mk 0 2 5).fbufSize < ({ State.reset with cfg := ⟨0, 2, 5⟩, plen := 2 } : State).plen.toNat + 4 ∧
    State.reset.cfg.legal = true ∧ ({ State.reset with plen := 252 } : State).plen.toNat ≤ State.reset.cfg.pbufSize := by
  decide

theorem witness_RtuEncodedFrameHasZeroCrcAndRepeats :
    (withPayload 0x11 0x03 [9]).cfg.legal = true ∧ (withPayload 0x11 0x03 [9]).plen.toNat = [9].length ∧
    [9].length ≤ (withPayload 0x11 0x03 [9]).cfg.pbufSize ∧ (withPayload 0x11 0x03 [9]).pbuf.Holds 0 [9] := by
  unfold Memory.Holds; decide

theorem witness_RtuDecodeLengthErrors :
    State.reset.cfg.fbufSize < ({ State.reset with flen := 514 } : State).flen.toNat ∧
    ({ State.reset with flen := 3 } : State).flen.toNat ≤ State.reset.cfg.fbufSize ∧
    ({ State.reset with flen := 3 } : State).flen.toNat < 4 := by decide

/-- The shortest frame, with its low CRC byte changed. -/
theorem witness_RtuDecodeChecksumMismatch :
    (withFrame [0x01, 0x83, 0x40, 0x81]).flen.toNat = 0 + 4 ∧ 4 ≤ State.reset.cfg.fbufSize ∧
    (withFrame [0x01, 0x83, 0x40, 0x81]).fbufBytes 4 = 0x01 :: 0x83 :: ([] ++ [0x40, 0x81]) ∧
    (crc16 [0x01, 0x83]).toNat ≠ 0x40 + 256 * 0x81 := by decide +kernel

theorem witness_RtuDecodeExceptionResponse_no_code :
    (withFrame [0x01, 0x83, 0x41, 0x81]).flen.toNat = 0 + 4 ∧ 4 ≤ State.reset.cfg.fbufSize ∧
    (withFrame [0x01, 0x83, 0x41, 0x81]).fbufBytes 4 = 0x01 :: 0x83 :: ([] ++ [0x41, 0x81]) ∧
    (crc16 [0x01, 0x83]).toNat = 0x41 + 256 * 0x81 ∧ 128 ≤ (0x83 : Byte).toNat := by decide +kernel

theorem witness_RtuDecodeExceptionResponse_code :
    (withFrame [0x01, 0x83, 0x02, 0xC0, 0xF1]).flen.toNat = 1 + 4 ∧ 5 ≤ State.reset.cfg.fbufSize ∧
    (withFrame [0x01, 0x83, 0x02, 0xC0, 0xF1]).fbufBytes 5 = 0x01 :: 0x83 :: ([0x02] ++ [0xC0, 0xF1]) ∧
    (crc16 [0x01, 0x83, 0x02]).toNat = 0xC0 + 256 * 0xF1 ∧ 128 ≤ (0x83 : Byte).toNat := by decide +kernel

/-- One payload byte more than PBUF holds, and the largest function code of a normal frame. -/
theorem witness_RtuDecodePayloadOverflow :
    (withSizedFrame ⟨0, 1, 6⟩ [0x01, 0x7F, 9, 9, 0xF6, 0x56]).flen.toNat = 2 + 4 ∧ 6 ≤ (Params.mk 0 1 6).fbufSize ∧
    (withSizedFrame ⟨0, 1, 6⟩ [0x01, 0x7F, 9, 9, 0xF6, 0x56]).fbufBytes 6 = 0x01 :: 0x7F :: ([9, 9] ++ [0xF6, 0x56]) ∧
    ((crc16 [0x01, 0x7F, 9, 9]).toNat = 0xF6 + 256 * 0x56 ∧ (0x7F : Byte).toNat < 128) ∧
    (Params.mk 0 1 6).pbufSize < [9, 9].length := by decide +kernel

/-- A payload that just fits PBUF. -/
theorem witness_RtuDecodeUnpacksFrame :
    (withSizedFrame ⟨0, 1, 5⟩ [0x01, 0x7F, 9, 0xC0, 0x36]).flen.toNat = 1 + 4 ∧ 5 ≤ (Params.mk 0 1 5).fbufSize ∧
    (withSizedFrame ⟨0, 1, 5⟩ [0x01, 0x7F, 9, 0xC0, 0x36]).fbufBytes 5 = 0x01 :: 0x7F :: ([9] ++ [0xC0, 0x36]) ∧
    ((crc16 [0x01, 0x7F, 9]).toNat = 0xC0 + 256 * 0x36 ∧ (0x7F : Byte).toNat < 128) ∧
    [9].length ≤ (Params.mk 0 1 5).pbufSize := by decide +kernel

/-- Each clause of the round trip: bit 7 of the function code clear, and set without and with a payload. -/
theorem witness_RtuRoundTrip :
    State.reset.cfg.legal = true ∧ ({ State.reset with plen := 252 } : State).plen.toNat ≤ State.reset.cfg.pbufSize ∧
    ((withPayload 1 0x7F [9]).func.getLsbD 7 = false ∧ (withPayload 1 0x7F [9]).pbuf.get? 0 = some 9) ∧
    ((withPayload 1 0x80 []).func.getLsbD 7 = true ∧ (withPayload 1 0x80 []).plen.toNat = 0) ∧
    ((withPayload 1 0x80 [9]).func.getLsbD 7 = true ∧ ((withPayload 1 0x80 [9]).pbufBytes 1)[0]? = some 9) := by
  decide +kernel

/-- Either CRC byte changed. -/
theorem witness_RtuCorruptedCrcByteIsDetected :
    (withFrame (v40.set 6 0)).flen.toNat = 4 + 4 ∧
    (withFrame (v40.set 6 0)).fbufBytes 8 = (rtuFrame 0x11 0x03 [0x00, 0x6B, 0x00, 0x03]).set 6 0 ∧
    (withFrame (v40.set 7 0)).fbufBytes 8 = (rtuFrame 0x11 0x03 [0x00, 0x6B, 0x00, 0x03]).set 7 0 ∧
    (rtuFrame 0x11 0x03 [0x00, 0x6B, 0x00, 0x03])[6]? ≠ some 0 ∧
    (rtuFrame 0x11 0x03 [0x00, 0x6B, 0x00, 0x03])[7]? ≠ some 0 := by decide +kernel

/-- The first and the last byte before the CRC changed. -/
theorem witness_RtuSingleByteChangeIsDetected :
    (withFrame (v40.set 0 0)).flen.toNat = 4 + 4 ∧
    (withFrame (v40.set 0 0)).fbufBytes 8 = (rtuFrame 0x11 0x03 [0x00, 0x6B, 0x00, 0x03]).set 0 0 ∧
    (withFrame (v40.set 5 0)).fbufBytes 8 = (rtuFrame 0x11 0x03 [0x00, 0x6B, 0x00, 0x03]).set 5 0 ∧
    (rtuFrame 0x11 0x03 [0x00, 0x6B, 0x00, 0x03])[0]? ≠ some 0 ∧
    (rtuFrame 0x11 0x03 [0x00, 0x6B, 0x00, 0x03])[5]? ≠ some 0 := by decide +kernel

theorem witness_HexCharactersAndValues :
    (0x30 ≤ (0x30 : Byte).toNat ∧ (0x39 : Byte).toNat ≤ 0x39) ∧ (0x41 ≤ (0x41 : Byte).toNat ∧ (0x46 : Byte).toNat ≤ 0x46) ∧
    (0x61 ≤ (0x61 : Byte).toNat ∧ (0x66 : Byte).toNat ≤ 0x66) ∧ (9 : BitVec 4).toNat ≤ 9 ∧ 10 ≤ (10 : BitVec 4).toNat := by
  decide

theorem witness_HexStringDecodesBack :
    isHex 0x30 = true ∧ isHex 0x66 = true ∧ ([0x6B, 0x0F] : List Byte)[1]? = some 0x0F := by decide

/-- The longest payload whose frame fits the default FBUF, and a frame one character too long for an FBUF of 20. -/
theorem witness_AsciiEncodeBuildsFrame :
    State.reset.cfg.pbufSize < ({ State.reset with plen := 253 } : State).plen.toNat ∧
    (Params.mk 0 8 20).fbufSize < 2 * ({ State.reset with cfg := ⟨0, 8, 20⟩, plen := 6 } : State).plen.toNat + 9 ∧
    State.reset.cfg.legal = true ∧ ({ State.reset with plen := 252 } : State).plen.toNat ≤ State.reset.cfg.pbufSize ∧
    2 * ({ State.reset with plen := 252 } : State).plen.toNat + 9 ≤ State.reset.cfg.fbufSize := by decide

theorem witness_AsciiDecodeLengthAndFramingErrors :
    State.reset.cfg.fbufSize < ({ State.reset with flen := 514 } : State).flen.toNat ∧
    ({ State.reset with flen := 2 } : State).flen.toNat < 3 ∧
    (withFrame [0x3B, 0x0D, 0x0A]).flen.toNat = 3 ∧
    ∀ mid, (withFrame [0x3B, 0x0D, 0x0A]).fbufBytes 3 ≠ 0x3A :: (mid ++ [0x0D, 0x0A]) := by
  refine ⟨by decide, by decide, by decide, fun mid h => ?_⟩
  have h₀ : ((withFrame [0x3B, 0x0D, 0x0A]).fbufBytes 3).head? = some 0x3A := by rw [h]; rfl
  exact absurd h₀ (by decide +kernel)

/-- A non-hex character, an odd number of characters, and two decoded bytes. -/
theorem witness_AsciiDecodeHexErrorsAndTruncation :
    ((withText ":1G\r\n").fbufBytes 5 = 0x3A :: (chars "1G" ++ [0x0D, 0x0A]) ∧ ∃ ch ∈ chars "1G", isHex ch = false) ∧
    ((withText ":11030\r\n").fbufBytes 8 = 0x3A :: (chars "11030" ++ [0x0D, 0x0A]) ∧ (chars "11030").length % 2 = 1) ∧
    (withText ":1103\r\n").flen.toNat = (chars "1103").length + 3 ∧
    (withText ":1103\r\n").fbufBytes 7 = 0x3A :: (chars "1103" ++ [0x0D, 0x0A]) ∧
    ((∀ ch ∈ chars "1103", isHex ch = true) ∧ (chars "1103").length % 2 = 0 ∧ (chars "1103").length < 6) := by
  decide +kernel

/-- V68n: a payload character changed. -/
theorem witness_AsciiDecodeChecksumMismatch :
    (withText ":1103006B00047E\r\n").flen.toNat = (chars "1103006B00047E").length + 3 ∧
    (withText ":1103006B00047E\r\n").fbufBytes 17 = 0x3A :: (chars "1103006B00047E" ++ [0x0D, 0x0A]) ∧
    ((∀ ch ∈ chars "1103006B00047E", isHex ch = true) ∧ (chars "1103006B00047E").length % 2 = 0) ∧
    hexBytes (chars "1103006B00047E") = 0x11 :: 0x03 :: ([0x00, 0x6B, 0x00, 0x04] ++ [0x7E]) ∧
    lrc [0x11, 0x03, 0x00, 0x6B, 0x00, 0x04] ≠ 0x7E := by decide +kernel

theorem witness_AsciiDecodeExceptionResponse_no_code :
    (withText ":01837C\r\n").flen.toNat = (chars "01837C").length + 3 ∧
    (withText ":01837C\r\n").fbufBytes 9 = 0x3A :: (chars "01837C" ++ [0x0D, 0x0A]) ∧
    ((∀ ch ∈ chars "01837C", isHex ch = true) ∧ (chars "01837C").length % 2 = 0) ∧
    hexBytes (chars "01837C") = 0x01 :: 0x83 :: ([] ++ [0x7C]) ∧
    (lrc [0x01, 0x83] = 0x7C ∧ 128 ≤ (0x83 : Byte).toNat) := by decide +kernel

theorem witness_AsciiDecodeExceptionResponse_code :
    (withText ":0183027A\r\n").flen.toNat = (chars "0183027A").length + 3 ∧
    (withText ":0183027A\r\n").fbufBytes 11 = 0x3A :: (chars "0183027A" ++ [0x0D, 0x0A]) ∧
    ((∀ ch ∈ chars "0183027A", isHex ch = true) ∧ (chars "0183027A").length % 2 = 0) ∧
    hexBytes (chars "0183027A") = 0x01 :: 0x83 :: ([0x02] ++ [0x7A]) ∧
    (lrc [0x01, 0x83, 0x02] = 0x7A ∧ 128 ≤ (0x83 : Byte).toNat) := by decide +kernel

theorem witness_AsciiDecodePayloadOverflow :
    ({ withText ":017F09096E\r\n" with cfg := ⟨0, 1, 13⟩ } : State).flen.toNat = (chars "017F09096E").length + 3 ∧
    ({ withText ":017F09096E\r\n" with cfg := ⟨0, 1, 13⟩ } : State).fbufBytes 13 = 0x3A :: (chars "017F09096E" ++ [0x0D, 0x0A]) ∧
    ((∀ ch ∈ chars "017F09096E", isHex ch = true) ∧ (chars "017F09096E").length % 2 = 0) ∧
    hexBytes (chars "017F09096E") = 0x01 :: 0x7F :: ([9, 9] ++ [0x6E]) ∧
    (lrc [0x01, 0x7F, 9, 9] = 0x6E ∧ (0x7F : Byte).toNat < 128 ∧ (Params.mk 0 1 13).pbufSize < [9, 9].length) := by
  decide +kernel

/-- In mixed letter case, with a payload that just fits PBUF. -/
theorem witness_AsciiDecodeUnpacksFrame :
    ({ withText ":017f0977\r\n" with cfg := ⟨0, 1, 11⟩ } : State).flen.toNat = (chars "017f0977").length + 3 ∧
    ({ withText ":017f0977\r\n" with cfg := ⟨0, 1, 11⟩ } : State).fbufBytes 11 = 0x3A :: (chars "017f0977" ++ [0x0D, 0x0A]) ∧
    ((∀ ch ∈ chars "017f0977", isHex ch = true) ∧ (chars "017f0977").length % 2 = 0) ∧
    hexBytes (chars "017f0977") = 0x01 :: 0x7F :: ([9] ++ [0x77]) ∧
    (lrc [0x01, 0x7F, 9] = 0x77 ∧ (0x7F : Byte).toNat < 128 ∧ [9].length ≤ (Params.mk 0 1 11).pbufSize) := by
  decide +kernel

/-- The longest payload; the clauses on bit 7 of the function code are those of `witness_RtuRoundTrip`. -/
theorem witness_AsciiRoundTrip :
    State.reset.cfg.legal = true ∧ ({ State.reset with plen := 252 } : State).plen.toNat ≤ State.reset.cfg.pbufSize ∧
    2 * ({ State.reset with plen := 252 } : State).plen.toNat + 9 ≤ State.reset.cfg.fbufSize := by decide

/-- Character 11 of V60 changed in value; character 7 changed in case only. -/
theorem witness_AsciiSingleCharacterChangeIsDetected :
    ((∀ ch ∈ chars "1103006B00037E", isHex ch = true) ∧ (chars "1103006B00037E").length = 14 ∧
      lsum (hexBytes (chars "1103006B00037E")) = 0) ∧
    ((chars "1103006B00037E")[11]? = some 0x33 ∧ isHex 0x34 = true ∧ hexVal 0x34 ≠ hexVal 0x33) ∧
    (withText ":1103006B00047E\r\n").fbufBytes 17 = 0x3A :: ((chars "1103006B00037E").set 11 0x34 ++ [0x0D, 0x0A]) ∧
    ((chars "1103006B00037E")[7]? = some 0x42 ∧ isHex 0x62 = true ∧ hexVal 0x62 = hexVal 0x42) ∧
    (withText ":1103006b00037E\r\n").fbufBytes 17 = 0x3A :: ((chars "1103006B00037E").set 7 0x62 ++ [0x0D, 0x0A]) := by
  decide +kernel

theorem witness_ErrorsKeepLengthsAndBuffers :
    ∃ t, exec .asciiDecode State.reset = .next t ∧ t.status.err ≠ 0 := ⟨_, rfl, by decide⟩

theorem witness_CommandsWriteOnlyTheirOwnState :
    (∃ t, exec .lrcFbuf State.reset = .next t) ∧ (∃ t, exec (.crcByte 1) State.reset = .next t) ∧
    (∃ t, exec .softReset State.reset = .next t) ∧ (∃ t, exec .rtuEncode State.reset = .next t) ∧
    ∃ t, exec .asciiDecode State.reset = .next t := ⟨⟨_, rfl⟩, ⟨_, rfl⟩, ⟨_, rfl⟩, ⟨_, rfl⟩, ⟨_, rfl⟩⟩

theorem witness_CommandsStayInsideBuffers :
    (∃ t, exec .rtuEncode State.reset = .next t) ∧ State.reset.cfg.pbufSize ≤ 252 ∧ State.reset.cfg.fbufSize ≤ 513 :=
  ⟨⟨_, rfl⟩, by decide, by decide⟩

/-- Each clause: no buffer read, FBUF read, PBUF read, all three a success. -/
theorem witness_CommandsUseOneDrawPerOperandByte :
    (∃ t, exec .crcInit State.reset = .next t) ∧
    (∃ t, exec .crcFbuf State.reset = .next t ∧ t.status.err = 0) ∧
    ∃ t, exec .rtuEncode State.reset = .next t ∧ t.status.err = 0 :=
  ⟨⟨_, rfl⟩, ⟨_, rfl, rfl⟩, ⟨_, rfl, rfl⟩⟩

/-- The same frame in two blocks that differ in everything else a decode could see. -/
theorem witness_DecodersDependOnTheirOperands :
    (withFrame v40).flen.toNat = v40.length ∧ (withFrame v40).fbuf.Holds 0 v40 ∧
    Memory.Holds ({ withFrame v40 with crc := 7, plen := 9, pbuf := [(0, 1)], status := ⟨8, 0⟩ } : State).fbuf 0 v40 ∧
    (∃ t, exec .rtuDecode (withFrame v40) = .next t ∧ t.status.err = 0) ∧
    ∃ t, exec .asciiDecode (withFrame v60) = .next t ∧ t.status.err = 0 :=
  ⟨by decide, by unfold Memory.Holds; decide, by unfold Memory.Holds; decide,
    exists_next_of_after (by decide +kernel), exists_next_of_after (by decide +kernel)⟩

end Sys2Proof.Tests
end

section
/-!
PROOFS. The scope of the block (00_scope.md): it acts only on a host access.
-/

namespace Sys2Proof.Machine

/-- A step with no host access left is idle (log 6). -/
theorem step_of_hostProgram_nil {s : State} (h : s.hostProgram = []) : step s = .next s := by
  simp only [step, h]

/-- Settles O6, by the idle case of the step. -/
theorem idleBlockStays : Obligations.IdleBlockStays := fun _ => step_of_hostProgram_nil

end Sys2Proof.Machine
end

section
/-!
PROOFS. Accesses of the host: which one starts a command, and what all others leave unchanged (10_state.md R22, R23,
R33; 20_memory.md R50, R56, R57).
-/

namespace Sys2Proof.Machine

/-- A slot's register is the one with the slot's offset (10_state.md R20). -/
theorem regOffset_of_regOfSlot {k : Nat} {r : Reg} (h : regOfSlot k = some r) : regOffset r = 4 * k := by
  unfold regOfSlot at h
  split at h <;> cases h <;> rfl

theorem registerAt_eq_ok_iff {off : Nat} {r : Reg} : registerAt off = .ok r ↔ off = regOffset r := by
  constructor
  · intro h
    unfold registerAt at h
    split_ifs at h with hle h4
    split at h <;> cases h
    next hslot =>
      have := regOffset_of_regOfSlot hslot
      omega
  · rintro rfl
    exact registerAt_regOffset r

/-- Only a 32-bit write at offset 0 of the window reaches CMD. -/
theorem eq_commandAccess_of_request {p : Params} {a : HostAccess} {w : HostWord}
    (h : request p a = .ok (.writeReg .cmd w)) : a = commandAccess p w := by
  cases a with
  | write32 addr v =>
    rcases windowOffset_cases p addr with ⟨_, he⟩ | ⟨off, rfl, hoff, _⟩
    · simp [request, he, bind, Except.bind] at h
    · rw [request_write32 p v hoff] at h
      cases hr : registerAt off with
      | error e => rw [hr] at h; cases h
      | ok r => rw [hr] at h; cases h; rw [registerAt_eq_ok_iff.mp hr]; rfl
  | read32 addr | read8 addr | write8 addr b | otherWidth bits addr =>
    simp only [request, bind, Except.bind, pure, Except.pure] at h
    repeat' split at h
    all_goals cases h

/-! ### Fields an access other than a command keeps -/

section
variable (s : State)

@[simp] theorem writeReg_cfg (v : HostWord) (r : Reg) : (s.writeReg v r).cfg = s.cfg := by cases r <;> rfl
@[simp] theorem writeReg_status (v : HostWord) (r : Reg) : (s.writeReg v r).status = s.status := by cases r <;> rfl
@[simp] theorem writeReg_rxchk (v : HostWord) (r : Reg) : (s.writeReg v r).rxchk = s.rxchk := by cases r <;> rfl

@[simp] theorem writeByte_cfg (i : Nat) (v : Byte) (b : Buffer) : (s.writeByte i v b).cfg = s.cfg := by
  cases b <;> rfl
@[simp] theorem writeByte_status (i : Nat) (v : Byte) (b : Buffer) : (s.writeByte i v b).status = s.status := by
  cases b <;> rfl
@[simp] theorem writeByte_rxchk (i : Nat) (v : Byte) (b : Buffer) : (s.writeByte i v b).rxchk = s.rxchk := by
  cases b <;> rfl

@[simp] theorem perform_cfg (q : Request) : (perform s q).cfg = s.cfg := by cases q <;> simp [perform]
@[simp] theorem perform_status (q : Request) : (perform s q).status = s.status := by cases q <;> simp [perform]
@[simp] theorem perform_rxchk (q : Request) : (perform s q).rxchk = s.rxchk := by cases q <;> simp [perform]

end

theorem runCommandWord_of_decode {w : HostWord} {i : Instr} (h : decode w = .ok i) (s : State) :
    runCommandWord w s = exec i s := by
  rw [runCommandWord, h]

/-- Settles O4: the access is the one that starts a command, and its word is decoded. -/
theorem stepRunsDecodedCommand : Obligations.StepRunsDecodedCommand := by
  intro s w i rest hp hw
  rw [step_commandAccess (w := w) hp, runCommandWord_of_decode hw]
  rfl

/-- Settles O14: a step whose access is no CMD write performs that access, and no access writes STATUS or RXCHK. -/
theorem onlyCommandsWriteStatusAndRxchk : Obligations.OnlyCommandsWriteStatusAndRxchk := by
  intro s t a rest hp ha ht
  rcases step_cases s with ⟨hnil, _⟩ | ⟨a', rest', hp', hcase⟩
  · simp [hp] at hnil
  obtain ⟨rfl, rfl⟩ := List.cons.inj (hp.symm.trans hp')
  rcases hcase with ⟨r, _, hs⟩ | ⟨w, hreq, _⟩ | ⟨q, _, _, hs⟩
  · simp [hs] at ht
  · exact absurd (eq_commandAccess_of_request hreq) (ha w)
  · obtain rfl := Host.Outcome.next.inj (hs.symm.trans ht)
    simp

end Sys2Proof.Machine
end

section
/-!
PROOFS. The operands a command reads: the bytes as they stand or drawn, and the draws used (10_state.md R36,
20_memory.md R60; log 4, log 5). The same case analysis shows that the parameters stay (R20, R34).
-/

namespace Sys2Proof.Machine

/-- Settles O11, for each buffer by the byte that a read sees at an index. -/
theorem operandBytesAreWrittenOnesOrDraws : Obligations.OperandBytesAreWrittenOnesOrDraws := fun s _ _ hi =>
  ⟨Memory.length_readAll .., Memory.length_readAll .., Memory.getElem?_readAll s.fbuf s.draws hi,
    Memory.getElem?_readAll s.pbuf s.draws hi⟩

/-- The number of operand bytes a command reads when its length checks pass: FBUF[0:FLEN], PBUF[0:PLEN] or none. -/
def operandCount (s : State) : Instr → Nat
  | .crcFbuf | .lrcFbuf | .rtuDecode | .asciiDecode => s.flen.toNat
  | .rtuEncode | .asciiEncode => s.plen.toNat
  | .crcInit | .crcByte _ | .lrcInit | .lrcByte _ | .softReset => 0

/-- The next state `t` has the parameters of `s` and either `n` draws used or, after an error, none. -/
structure UsesDraws (s : State) (n : Nat) (t : State) : Prop where
  cfg   : t.cfg = s.cfg
  draws : t.draws = s.draws + n ∨ t.draws = s.draws ∧ t.status.err ≠ 0

theorem errorStatus_err_ne_zero (k : FrameError) : (errorStatus k).err ≠ 0 := by
  cases k <;> simp [errorStatus, errCode]

/-- An error before any operand is read uses no draw. -/
theorem usesDraws_setStatus_error (s : State) (n : Nat) (k : FrameError) :
    UsesDraws s n (s.setStatus (errorStatus k)) :=
  ⟨rfl, .inr ⟨rfl, errorStatus_err_ne_zero k⟩⟩

/-- The decoders' common end uses no further draw. -/
theorem DecoderEnd.cfg_draws {kept : State} {o : Host.Outcome State Fault Refusal} (h : DecoderEnd kept o) :
    ∃ t, o = .next t ∧ t.cfg = kept.cfg ∧ t.draws = kept.draws := by
  cases h <;> exact ⟨_, rfl, rfl, rfl⟩

/-- Every command ends in a next state, with the parameters kept and one draw used for each operand byte read. -/
theorem exec_usesDraws (i : Instr) (s : State) : ∃ t, exec i s = .next t ∧ UsesDraws s (operandCount s i) t := by
  cases i with
  | crcInit => exact ⟨_, rfl, rfl, .inl rfl⟩
  | crcByte b => exact ⟨_, rfl, rfl, .inl rfl⟩
  | lrcInit => exact ⟨_, rfl, rfl, .inl rfl⟩
  | lrcByte b => exact ⟨_, rfl, rfl, .inl rfl⟩
  | softReset => exact ⟨_, rfl, rfl, .inl rfl⟩
  | crcFbuf =>
    rcases execCrcFbuf_cases s with ⟨_, h⟩ | ⟨_, h⟩
    · exact ⟨_, h, usesDraws_setStatus_error s _ _⟩
    · exact ⟨_, h, rfl, .inl rfl⟩
  | lrcFbuf =>
    rcases execLrcFbuf_cases s with ⟨_, h⟩ | ⟨_, h⟩
    · exact ⟨_, h, usesDraws_setStatus_error s _ _⟩
    · exact ⟨_, h, rfl, .inl rfl⟩
  | rtuEncode =>
    rcases execRtuEncode_cases s with ⟨_, h⟩ | ⟨_, _, h⟩
    · exact ⟨_, h, usesDraws_setStatus_error s _ _⟩
    · exact ⟨_, h, rfl, .inl rfl⟩
  | asciiEncode =>
    rcases execAsciiEncode_cases s with ⟨_, h⟩ | ⟨_, _, h⟩
    · exact ⟨_, h, usesDraws_setStatus_error s _ _⟩
    · exact ⟨_, h, rfl, .inl rfl⟩
  | rtuDecode =>
    rcases execRtuDecode_cases s with ⟨k, _, h⟩ | ⟨c, rx, h⟩
    · exact ⟨_, h, usesDraws_setStatus_error s _ k⟩
    · obtain ⟨t, ht, hcfg, hdraws⟩ := h.cfg_draws
      exact ⟨t, ht, hcfg, .inl hdraws⟩
  | asciiDecode =>
    rcases execAsciiDecode_cases s with ⟨n, rfl | rfl, k, _, h⟩ | ⟨v, rx, h⟩
    · exact ⟨_, h, usesDraws_setStatus_error s _ k⟩
    · exact ⟨_, h, rfl, .inl rfl⟩
    · obtain ⟨t, ht, hcfg, hdraws⟩ := h.cfg_draws
      exact ⟨t, ht, hcfg, .inl hdraws⟩

theorem usesDraws_of_exec {i : Instr} {s t : State} (h : exec i s = .next t) : UsesDraws s (operandCount s i) t := by
  obtain ⟨t', ht', hu⟩ := exec_usesDraws i s
  obtain rfl := Host.Outcome.next.inj (ht'.symm.trans h)
  exact hu

/-- Settles O56: each clause is `usesDraws_of_exec` with the command's operand count. -/
theorem commandsUseOneDrawPerOperandByte : Obligations.CommandsUseOneDrawPerOperandByte := by
  intro i s t h
  have hd := (usesDraws_of_exec h).draws
  have hok : t.status.err = 0 → t.draws = s.draws + operandCount s i := fun h0 =>
    hd.resolve_right fun he => he.2 h0
  refine ⟨fun hi => ?_, fun hi => ?_, fun hi => ?_⟩
  · have hn : operandCount s i = 0 := by
      rcases hi with hi | ⟨b, rfl | rfl⟩
      · fin_cases hi <;> rfl
      · rfl
      · rfl
    rw [hn] at hd
    exact hd.elim id And.left
  · have hn : operandCount s i = s.flen.toNat := by fin_cases hi <;> rfl
    rw [hn] at hd hok
    exact ⟨hd.symm.imp And.left id, hok⟩
  · have hn : operandCount s i = s.plen.toNat := by fin_cases hi <;> rfl
    rw [hn] at hd hok
    exact ⟨hd.symm.imp And.left id, hok⟩

/-- A command word, legal or not, keeps the parameters. -/
theorem runCommandWord_cfg {w : HostWord} {s t : State} (h : runCommandWord w s = .next t) : t.cfg = s.cfg := by
  unfold runCommandWord at h
  split at h
  · exact (usesDraws_of_exec h).cfg
  · cases h; rfl

theorem step_cfg {s t : State} (h : step s = .next t) : t.cfg = s.cfg := by
  rcases step_cases s with ⟨_, hs⟩ | ⟨a, rest, _, ⟨r, _, hs⟩ | ⟨w, _, hs⟩ | ⟨q, _, _, hs⟩⟩ <;> rw [hs] at h
  · cases h; rfl
  · cases h
  · simpa using runCommandWord_cfg h
  · cases h; exact perform_cfg _ q

/-- Settles O18: CAPS is read from the parameters, which every step keeps. -/
theorem stepKeepsParametersAndCaps : Obligations.StepKeepsParametersAndCaps := fun _ _ h =>
  ⟨step_cfg h, congrArg capsWord (step_cfg h)⟩

end Sys2Proof.Machine
end

section
/-!
PROOFS. What a decode depends on (10_state.md R35): two runs of a decoder on the same frame, stage by stage.
-/

namespace Sys2Proof.Machine

/-- Two decodes end with the same STATUS and, on success, with the same decoded outputs. -/
def DecodesAlike (o₁ o₂ : Host.Outcome State Fault Refusal) : Prop :=
  ∃ t₁ t₂, o₁ = .next t₁ ∧ o₂ = .next t₂ ∧ t₂.status = t₁.status ∧
    (t₁.status.err = 0 → t₂.slave = t₁.slave ∧ t₂.func = t₁.func ∧ t₂.plen = t₁.plen ∧
      ∀ j : Nat, j < t₁.plen.toNat → t₂.pbuf.get? j = t₁.pbuf.get? j)

/-- A test with the same answer in both runs. -/
theorem DecodesAlike.ite {c : Prop} [Decidable c] {o₁ o₂ o₁' o₂' : Host.Outcome State Fault Refusal}
    (h : c → DecodesAlike o₁ o₂) (h' : ¬ c → DecodesAlike o₁' o₂') :
    DecodesAlike (if c then o₁ else o₁') (if c then o₂ else o₂') := by
  split_ifs with hc
  · exact h hc
  · exact h' hc

theorem raise_decodesAlike (k : FrameError) (s₁ s₂ : State) : DecodesAlike (raise k s₁) (raise k s₂) :=
  ⟨_, _, rfl, rfl, rfl, fun h => absurd h (errorStatus_err_ne_zero k)⟩

/-- The bytes a successful decode delivers cover all that PLEN counts. -/
theorem succeed_decodesAlike (a f : Byte) (p : List Byte) (s₁ s₂ : State) :
    DecodesAlike (succeed ((s₁.setAddress a f).setPayload p)) (succeed ((s₂.setAddress a f).setPayload p)) := by
  refine ⟨_, _, rfl, rfl, rfl, fun _ => ⟨rfl, rfl, rfl, fun j hj => ?_⟩⟩
  have hlt : j < p.length := by
    have hj : j < p.length % 2 ^ 16 := by simpa using hj
    exact hj.trans_le (Nat.mod_le ..)
  exact (Memory.get?_setAll_of_lt s₂.pbuf hlt).trans (Memory.get?_setAll_of_lt s₁.pbuf hlt).symm

section
variable {s₁ s₂ : State} (hcfg : s₁.cfg = s₂.cfg)
include hcfg

theorem deliver_decodesAlike (a f : Byte) (p : List Byte) : DecodesAlike (deliver a f p s₁) (deliver a f p s₂) := by
  unfold deliver
  rw [hcfg]
  refine .ite (fun _ => ?_) fun _ =>
    .ite (fun _ => raise_decodesAlike ..) fun _ => succeed_decodesAlike ..
  cases p with
  | nil => exact raise_decodesAlike ..
  | cons code rest => exact raise_decodesAlike ..

theorem rtuCheckFrame_decodesAlike (fr : List Byte) :
    DecodesAlike (rtuCheckFrame fr s₁) (rtuCheckFrame fr s₂) :=
  .ite (fun _ => raise_decodesAlike ..) fun _ => deliver_decodesAlike (by simpa using hcfg) ..

theorem asciiCheckBytes_decodesAlike (d : List Byte) :
    DecodesAlike (asciiCheckBytes d s₁) (asciiCheckBytes d s₂) :=
  .ite (fun _ => raise_decodesAlike ..) fun _ =>
    .ite (fun _ => raise_decodesAlike ..) fun _ => deliver_decodesAlike (by simpa using hcfg) ..

theorem asciiCheckFrame_decodesAlike (fr : List Byte) :
    DecodesAlike (asciiCheckFrame fr s₁) (asciiCheckFrame fr s₂) :=
  .ite (fun _ => raise_decodesAlike ..) fun _ =>
    .ite (fun _ => raise_decodesAlike ..) fun _ =>
      .ite (fun _ => raise_decodesAlike ..) fun _ => asciiCheckBytes_decodesAlike hcfg _

variable (hflen : s₁.flen = s₂.flen) (hbytes : s₁.fbufBytes s₁.flen.toNat = s₂.fbufBytes s₂.flen.toNat)
include hflen hbytes

theorem execRtuDecode_decodesAlike : DecodesAlike (execRtuDecode s₁) (execRtuDecode s₂) := by
  simp only [execRtuDecode, hbytes]
  rw [hcfg, hflen]
  exact .ite (fun _ => raise_decodesAlike ..) fun _ =>
    .ite (fun _ => raise_decodesAlike ..) fun _ => rtuCheckFrame_decodesAlike (by simpa using hcfg) _

theorem execAsciiDecode_decodesAlike : DecodesAlike (execAsciiDecode s₁) (execAsciiDecode s₂) := by
  simp only [execAsciiDecode, hbytes]
  rw [hcfg, hflen]
  exact .ite (fun _ => raise_decodesAlike ..) fun _ =>
    .ite (fun _ => raise_decodesAlike ..) fun _ => asciiCheckFrame_decodesAlike (by simpa using hcfg) _

end

/-- A command reads a written frame as it stands, whatever the draws. -/
theorem fbufBytes_of_holds {s : State} {fr : List Byte} (hn : s.flen.toNat = fr.length) (h : s.fbuf.Holds 0 fr) :
    s.fbufBytes s.flen.toNat = fr := by
  rw [hn]
  exact Memory.readAll_of_written s.draws fun k hk => by simpa using h k hk

/-- Settles O58: both states read the same frame, and each stage of a decoder depends on the frame and the
parameters. -/
theorem decodersDependOnTheirOperands : Obligations.DecodersDependOnTheirOperands := by
  intro i s₁ s₂ t₁ fr hi hcfg hflen hn hf₁ hf₂ ht
  have hbytes : s₁.fbufBytes s₁.flen.toNat = s₂.fbufBytes s₂.flen.toNat := by
    rw [fbufBytes_of_holds hn hf₁, fbufBytes_of_holds (hflen ▸ hn) hf₂]
  have halike : DecodesAlike (exec i s₁) (exec i s₂) := by
    rcases hi with rfl | rfl
    · exact execRtuDecode_decodesAlike hcfg hflen hbytes
    · exact execAsciiDecode_decodesAlike hcfg hflen hbytes
  obtain ⟨t₁', t₂, ht₁, ht₂, hstatus, hout⟩ := halike
  obtain rfl := Host.Outcome.next.inj (ht₁.symm.trans ht)
  exact ⟨t₂, ht₂, hstatus, hout⟩

end Sys2Proof.Machine
end

section
/-!
PROOFS. The invariant (10_state.md R20, R23, R31, R32; 20_memory.md R62; 60_exceptions.md R221): what a command writes
to the buffers and to STATUS, and what every other access leaves.
-/

namespace Sys2Proof.Machine

/-! ### Writes inside a buffer -/

/-- `m'` is the buffer `m` of `size` bytes after a byte string that fits was written from index 0. -/
def Memory.Fills (size : Nat) (m m' : Memory) : Prop := ∃ bs : List Byte, bs.length ≤ size ∧ m' = m.setAll 0 bs

/-- A buffer left as it was: the string written is empty. -/
theorem Memory.Fills.refl (size : Nat) (m : Memory) : m.Fills size m := ⟨[], Nat.zero_le size, rfl⟩

theorem Memory.Fills.wf {size : Nat} {m m' : Memory} (h : m.Fills size m') (hm : m.wf = true) : m'.wf = true := by
  obtain ⟨bs, _, rfl⟩ := h
  exact wf_setAll 0 bs hm

theorem Memory.Fills.below {size : Nat} {m m' : Memory} (h : m.Fills size m') (hm : m.below size = true) :
    m'.below size = true := by
  obtain ⟨bs, hlen, rfl⟩ := h
  exact below_setAll hm (by omega)

theorem Memory.Fills.get?_of_size_le {size j : Nat} {m m' : Memory} (h : m.Fills size m') (hj : size ≤ j) :
    m'.get? j = m.get? j := by
  obtain ⟨bs, hlen, rfl⟩ := h
  exact get?_setAll_of_ge m (hlen.trans hj)

/-! ### What a command leaves -/

/-- The state `t` is one a command can leave from `s`: parameters kept (R20), each buffer filled within its size (R62),
a legal STATUS (R23, R221). -/
structure CommandLeaves (s t : State) : Prop where
  cfg    : t.cfg = s.cfg
  pbuf   : s.pbuf.Fills s.cfg.pbufSize t.pbuf
  fbuf   : s.fbuf.Fills s.cfg.fbufSize t.fbuf
  status : statusLegal t.status = true

/-- A command that writes no buffer leaves both filled with nothing. -/
theorem CommandLeaves.of_buffers_eq {s t : State} (hcfg : t.cfg = s.cfg) (hp : t.pbuf = s.pbuf) (hf : t.fbuf = s.fbuf)
    (hst : statusLegal t.status = true) : CommandLeaves s t :=
  ⟨hcfg, hp ▸ .refl .., hf ▸ .refl .., hst⟩

theorem statusLegal_errorStatus (k : FrameError) : statusLegal (errorStatus k) = true := by cases k <;> rfl

theorem statusLegal_okStatus : statusLegal okStatus = true := rfl

/-- An error that stops a command before it writes anything else. -/
theorem commandLeaves_setStatus_error (s : State) (k : FrameError) :
    CommandLeaves s (s.setStatus (errorStatus k)) :=
  .of_buffers_eq rfl rfl rfl (statusLegal_errorStatus k)

/-- The decoders' common end writes PBUF only after its length check, and FBUF never. -/
theorem DecoderEnd.commandLeaves {kept : State} {o : Host.Outcome State Fault Refusal} (h : DecoderEnd kept o) :
    ∃ t, o = .next t ∧ CommandLeaves kept t := by
  cases h with
  | error k _ => exact ⟨_, rfl, commandLeaves_setStatus_error kept k⟩
  | exceptionResponse a f code _ =>
    exact ⟨_, rfl, .of_buffers_eq rfl rfl rfl (statusLegal_errorStatus (.exceptionResponse code))⟩
  | success a f p _ hp => exact ⟨_, rfl, rfl, ⟨p, hp, rfl⟩, .refl .., statusLegal_okStatus⟩

/-- What is left from a state with the parameters and buffers of `s` is left from `s`. -/
theorem CommandLeaves.of_kept {s kept t : State} (h : CommandLeaves kept t) (hcfg : kept.cfg = s.cfg)
    (hp : kept.pbuf = s.pbuf) (hf : kept.fbuf = s.fbuf) : CommandLeaves s t :=
  ⟨h.cfg.trans hcfg, hcfg ▸ hp ▸ h.pbuf, hcfg ▸ hf ▸ h.fbuf, h.status⟩

@[simp] theorem length_hexString (bs : List Byte) : (hexString bs).length = 2 * bs.length := by
  induction bs with
  | nil => rfl
  | cons b bs ih => simp only [hexString_cons, List.length_cons, ih]; omega

@[simp] theorem length_asciiFrame (a f : Byte) (p : List Byte) : (asciiFrame a f p).length = 2 * p.length + 9 := by
  simp only [asciiFrame_eq, List.length_cons, List.length_append, length_hexString, List.length_nil]
  omega

@[simp] theorem length_pbufBytes (s : State) (n : Nat) : (s.pbufBytes n).length = n := Memory.length_readAll ..

theorem exec_commandLeaves (i : Instr) (s : State) : ∃ t, exec i s = .next t ∧ CommandLeaves s t := by
  cases i with
  | crcInit => exact ⟨_, rfl, .of_buffers_eq rfl rfl rfl rfl⟩
  | crcByte b => exact ⟨_, rfl, .of_buffers_eq rfl rfl rfl rfl⟩
  | lrcInit => exact ⟨_, rfl, .of_buffers_eq rfl rfl rfl rfl⟩
  | lrcByte b => exact ⟨_, rfl, .of_buffers_eq rfl rfl rfl rfl⟩
  | softReset => exact ⟨_, rfl, .of_buffers_eq rfl rfl rfl rfl⟩
  | crcFbuf =>
    rcases execCrcFbuf_cases s with ⟨_, h⟩ | ⟨_, h⟩
    · exact ⟨_, h, commandLeaves_setStatus_error s _⟩
    · exact ⟨_, h, .of_buffers_eq rfl rfl rfl rfl⟩
  | lrcFbuf =>
    rcases execLrcFbuf_cases s with ⟨_, h⟩ | ⟨_, h⟩
    · exact ⟨_, h, commandLeaves_setStatus_error s _⟩
    · exact ⟨_, h, .of_buffers_eq rfl rfl rfl rfl⟩
  | rtuEncode =>
    rcases execRtuEncode_cases s with ⟨_, h⟩ | ⟨_, hfits, h⟩
    · exact ⟨_, h, commandLeaves_setStatus_error s _⟩
    · exact ⟨_, h, rfl, .refl .., ⟨_, by simpa using hfits, rfl⟩, statusLegal_okStatus⟩
  | asciiEncode =>
    rcases execAsciiEncode_cases s with ⟨_, h⟩ | ⟨_, hfits, h⟩
    · exact ⟨_, h, commandLeaves_setStatus_error s _⟩
    · exact ⟨_, h, rfl, .refl .., ⟨_, by simpa using hfits, rfl⟩, statusLegal_okStatus⟩
  | rtuDecode =>
    rcases execRtuDecode_cases s with ⟨k, _, h⟩ | ⟨c, rx, h⟩
    · exact ⟨_, h, commandLeaves_setStatus_error s k⟩
    · obtain ⟨t, ht, hleaves⟩ := h.commandLeaves
      exact ⟨t, ht, hleaves.of_kept rfl rfl rfl⟩
  | asciiDecode =>
    rcases execAsciiDecode_cases s with ⟨n, _, k, _, h⟩ | ⟨v, rx, h⟩
    · exact ⟨_, h, .of_buffers_eq rfl rfl rfl (statusLegal_errorStatus k)⟩
    · obtain ⟨t, ht, hleaves⟩ := h.commandLeaves
      exact ⟨t, ht, hleaves.of_kept rfl rfl rfl⟩

/-- A command word, legal or not, ends in a next state. -/
theorem runCommandWord_commandLeaves (w : HostWord) (s : State) :
    ∃ t, runCommandWord w s = .next t ∧ CommandLeaves s t := by
  unfold runCommandWord
  split
  next i _ => exact exec_commandLeaves i s
  next => exact ⟨_, rfl, commandLeaves_setStatus_error s .illegalCommand⟩

/-- Settles O57: what a command writes to a buffer fits in it. -/
theorem commandsStayInsideBuffers : Obligations.CommandsStayInsideBuffers := by
  intro i s t h
  obtain ⟨t', ht', hleaves⟩ := exec_commandLeaves i s
  obtain rfl := Host.Outcome.next.inj (ht'.symm.trans h)
  exact ⟨fun j => hleaves.pbuf.get?_of_size_le, fun j => hleaves.fbuf.get?_of_size_le⟩

/-! ### The invariant -/

/-- Every command keeps the invariant. -/
theorem StateInv.of_commandLeaves {s t : State} (hs : StateInv s) (h : CommandLeaves s t) : StateInv t where
  cfg_legal := by rw [h.cfg]; exact hs.cfg_legal
  pbuf_wf := h.pbuf.wf hs.pbuf_wf
  pbuf_below := by rw [h.cfg]; exact h.pbuf.below hs.pbuf_below
  fbuf_wf := h.fbuf.wf hs.fbuf_wf
  fbuf_below := by rw [h.cfg]; exact h.fbuf.below hs.fbuf_below
  status_legal := h.status

/-- The invariant speaks of the parameters, the buffers and STATUS only. -/
theorem StateInv.congr {s t : State} (hs : StateInv s) (hcfg : t.cfg = s.cfg) (hst : t.status = s.status)
    (hp : t.pbuf = s.pbuf) (hf : t.fbuf = s.fbuf) : StateInv t := by
  obtain ⟨h₁, h₂, h₃, h₄, h₅, h₆⟩ := hs
  constructor <;> simpa only [hcfg, hst, hp, hf]

@[simp] theorem writeReg_pbuf (s : State) (v : HostWord) (r : Reg) : (s.writeReg v r).pbuf = s.pbuf := by
  cases r <;> rfl

@[simp] theorem writeReg_fbuf (s : State) (v : HostWord) (r : Reg) : (s.writeReg v r).fbuf = s.fbuf := by
  cases r <;> rfl

theorem StateInv.writeByte {s : State} (hs : StateInv s) {b : Buffer} {i : Nat} (v : Byte)
    (hi : i < bufferSize s.cfg b) : StateInv (s.writeByte i v b) := by
  obtain ⟨hcfg, hpwf, hpbelow, hfwf, hfbelow, hst⟩ := hs
  cases b with
  | pbuf => exact ⟨hcfg, Memory.wf_set i v hpwf, Memory.below_set v hpbelow hi, hfwf, hfbelow, hst⟩
  | fbuf => exact ⟨hcfg, hpwf, hpbelow, Memory.wf_set i v hfwf, Memory.below_set v hfbelow hi, hst⟩

/-- The port accepts a byte write only at an index below the buffer's size (R53). -/
theorem lt_bufferSize_of_request_writeByte {p : Params} {a : HostAccess} {b : Buffer} {i : Nat} {v : Byte}
    (h : request p a = .ok (.writeByte b i v)) : i < bufferSize p b := by
  cases a with
  | write8 addr v' =>
    rcases windowOffset_cases p addr with ⟨_, he⟩ | ⟨off, rfl, hoff, _⟩
    · simp [request, he, bind, Except.bind] at h
    · rw [request_write8 p v' hoff] at h
      cases hb : bufferByteAt p off with
      | error e => rw [hb] at h; cases h
      | ok bi => rw [hb] at h; cases h; exact bufferByteAt_index hb
  | read32 addr | write32 addr w | read8 addr | otherWidth bits addr =>
    simp only [request, bind, Except.bind, pure, Except.pure] at h
    repeat' split at h
    all_goals cases h

/-- Every access the port accepts keeps the invariant. -/
theorem StateInv.perform {s : State} (hs : StateInv s) {a : HostAccess} {q : Request} (h : request s.cfg a = .ok q) :
    StateInv (perform s q) := by
  cases q with
  | readReg r => exact hs.congr rfl rfl rfl rfl
  | writeReg r v =>
    exact hs.congr (writeReg_cfg s v r) (writeReg_status s v r) (writeReg_pbuf s v r) (writeReg_fbuf s v r)
  | readByte b i => exact hs.congr rfl rfl rfl rfl
  | writeByte b i v => exact hs.writeByte v (lt_bufferSize_of_request_writeByte h)

/-- Settles O17: by the cases of a step, each of which keeps the invariant. -/
theorem stepKeepsInvariant : Obligations.StepKeepsInvariant := by
  intro s t hs h
  rcases step_cases s with ⟨_, hstep⟩ | ⟨a, rest, _, ⟨r, _, hstep⟩ | ⟨w, _, hstep⟩ | ⟨q, hreq, _, hstep⟩⟩ <;>
    rw [hstep] at h
  · cases h; exact hs
  · cases h
  · have hrest : StateInv (s.setHostProgram rest) := hs.congr rfl rfl rfl rfl
    obtain ⟨t', ht', hleaves⟩ := runCommandWord_commandLeaves w (s.setHostProgram rest)
    obtain rfl := Host.Outcome.next.inj (ht'.symm.trans h)
    exact hrest.of_commandLeaves hleaves
  · have hrest : StateInv (s.setHostProgram rest) := hs.congr rfl rfl rfl rfl
    cases h
    exact hrest.perform hreq

end Sys2Proof.Machine
end

section
/-!
PROOFS. What the host's accesses to registers and buffers do (20_memory.md R51, R52, R56; 10_state.md R22 to R34).
-/

namespace Sys2Proof.Machine

/-! ### One access, by what it reaches -/

/-- A step whose access is no CMD write performs it. -/
theorem step_of_request {s : State} {a : HostAccess} {rest : List HostAccess} {q : Request}
    (hp : s.hostProgram = a :: rest) (hreq : request s.cfg a = .ok q) (hq : ∀ w, q ≠ .writeReg .cmd w) :
    step s = .next (perform (s.setHostProgram rest) q) := by
  rcases step_cases s with ⟨hnil, _⟩ | ⟨a', rest', hp', hcase⟩
  · simp [hp] at hnil
  obtain ⟨rfl, rfl⟩ := List.cons.inj (hp.symm.trans hp')
  rcases hcase with ⟨r, hr, _⟩ | ⟨w, hr, _⟩ | ⟨q', hr, _, hs⟩
  · cases hr.symm.trans hreq
  · exact absurd (Except.ok.inj (hreq.symm.trans hr)) (hq w)
  · rw [hs, Except.ok.inj (hr.symm.trans hreq)]

theorem regOffset_lt_windowSize (r : Reg) : regOffset r < 0x4000 := by cases r <;> decide

/-- A 32-bit read at a register's offset (R51). -/
theorem step_read32 {s : State} {r : Reg} {rest : List HostAccess}
    (hp : s.hostProgram = .read32 (s.cfg.sfcBase + regOffset r) :: rest) :
    step s = .next ((s.setHostProgram rest).observe (.word (s.readReg r))) := by
  have hreq : request s.cfg (.read32 (s.cfg.sfcBase + regOffset r)) = .ok (.readReg r) := by
    rw [request_read32 _ (regOffset_lt_windowSize r), registerAt_regOffset]; rfl
  rw [step_of_request hp hreq (by simp)]
  cases r <;> rfl

/-- A 32-bit write at the offset of a register other than CMD (R51). -/
theorem step_write32 {s : State} {r : Reg} {v : HostWord} {rest : List HostAccess} (hr : r ≠ .cmd)
    (hp : s.hostProgram = .write32 (s.cfg.sfcBase + regOffset r) v :: rest) :
    step s = .next ((s.writeReg v r).setHostProgram rest) := by
  have hreq : request s.cfg (.write32 (s.cfg.sfcBase + regOffset r) v) = .ok (.writeReg r v) := by
    rw [request_write32 _ _ (regOffset_lt_windowSize r), registerAt_regOffset]; rfl
  rw [step_of_request hp hreq (by simp [hr])]
  cases r <;> rfl

/-- The port's 8-bit side: exactly the offsets of a buffer's bytes (R50, R52). -/
theorem bufferByteAt_eq_ok_iff {p : Params} (hl : p.legal = true) {off i : Nat} {b : Buffer} :
    bufferByteAt p off = .ok (b, i) ↔ off = bufferBase b + i ∧ i < bufferSize p b := by
  constructor
  · intro h
    refine ⟨?_, bufferByteAt_index h⟩
    unfold bufferByteAt at h
    split_ifs at h <;> cases h <;> simp only [bufferBase] <;> omega
  · rintro ⟨rfl, hi⟩
    cases b with
    | pbuf => exact bufferByteAt_pbuf hl hi
    | fbuf => exact bufferByteAt_fbuf hl hi

theorem bufferBase_add_lt_windowSize {p : Params} (hl : p.legal = true) {b : Buffer} {i : Nat}
    (hi : i < bufferSize p b) : bufferBase b + i < 0x4000 := by
  rw [Params.legal_iff] at hl
  cases b <;> simp only [bufferBase, bufferSize] at hi ⊢ <;> omega

/-- An 8-bit read at the offset of a buffer's byte (R52, R36). -/
theorem step_read8 {s : State} {b : Buffer} {i : Nat} {rest : List HostAccess} (hl : s.cfg.legal = true)
    (hi : i < bufferSize s.cfg b) (hp : s.hostProgram = .read8 (s.cfg.sfcBase + (bufferBase b + i)) :: rest) :
    step s = .next (((s.setHostProgram rest).observe (.byte ((s.buffer b).read s.draws i))).useDraws 1) := by
  have hreq : request s.cfg (.read8 (s.cfg.sfcBase + (bufferBase b + i))) = .ok (.readByte b i) := by
    rw [request_read8 _ (bufferBase_add_lt_windowSize hl hi), (bufferByteAt_eq_ok_iff hl).mpr ⟨rfl, hi⟩]; rfl
  rw [step_of_request hp hreq (by simp)]
  cases b <;> rfl

/-- An 8-bit write at the offset of a buffer's byte (R52). -/
theorem step_write8 {s : State} {b : Buffer} {i : Nat} {v : Byte} {rest : List HostAccess} (hl : s.cfg.legal = true)
    (hi : i < bufferSize s.cfg b) (hp : s.hostProgram = .write8 (s.cfg.sfcBase + (bufferBase b + i)) v :: rest) :
    step s = .next ((s.setHostProgram rest).writeByte i v b) := by
  have hreq : request s.cfg (.write8 (s.cfg.sfcBase + (bufferBase b + i)) v) = .ok (.writeByte b i v) := by
    rw [request_write8 _ _ (bufferBase_add_lt_windowSize hl hi), (bufferByteAt_eq_ok_iff hl).mpr ⟨rfl, hi⟩]; rfl
  rw [step_of_request hp hreq (by simp)]
  rfl

/-! ### Registers -/

/-- STATUS as a number (R23): EXCODE is bits 15:8, ERR bits 3:0. -/
theorem statusWord_eq_ofNat (st : Status) : statusWord st = BitVec.ofNat 32 (st.excode.toNat * 256 + st.err.toNat) := by
  apply BitVec.eq_of_toNat_eq
  have hx := st.excode.isLt
  have he := st.err.isLt
  have hshift : (st.excode.toNat <<< 4) <<< 4 = 2 ^ 4 * (2 ^ 4 * st.excode.toNat) := by
    simp only [Nat.shiftLeft_eq]; omega
  simp only [statusWord, BitVec.toNat_append, BitVec.toNat_ofNat, Nat.zero_mod, Nat.zero_shiftLeft, Nat.zero_or,
    Nat.or_zero]
  rw [hshift, ← Nat.two_pow_add_eq_or_of_lt he]
  omega

/-- LRC as a number (R26). -/
theorem negate8_zeroExtend_eq_ofNat (v : Byte) :
    (negate8 v).zeroExtend 32 = BitVec.ofNat 32 ((256 - v.toNat) % 256) := by
  apply BitVec.eq_of_toNat_eq
  simp [negate8]

/-- CAPS as a number (R34): legal sizes fit 16 bits (R7). -/
theorem capsWord_eq_ofNat {p : Params} (hl : p.legal = true) :
    capsWord p = BitVec.ofNat 32 (p.pbufSize * 65536 + p.fbufSize) := by
  rw [Params.legal_iff] at hl
  apply BitVec.eq_of_toNat_eq
  simp only [capsWord, BitVec.toNat_append, BitVec.toNat_ofNat]
  rw [← Nat.shiftLeft_add_eq_or_of_lt (Nat.mod_lt _ (by decide)), Nat.shiftLeft_eq]
  omega

/-- Settles O7: each offset is a register's, and the register's value is the number its rule gives. -/
theorem registerReadReturnsItsValue : Obligations.RegisterReadReturnsItsValue := by
  intro s off v rest hl hmem hp
  obtain ⟨r, rfl, hv⟩ : ∃ r, off = regOffset r ∧ s.readReg r = BitVec.ofNat 32 v := by
    simp only [List.mem_cons, List.not_mem_nil, or_false, Prod.mk.injEq] at hmem
    rcases hmem with ⟨rfl, rfl⟩ | ⟨rfl, rfl⟩ | ⟨rfl, rfl⟩ | ⟨rfl, rfl⟩ | ⟨rfl, rfl⟩ | ⟨rfl, rfl⟩ | ⟨rfl, rfl⟩ |
      ⟨rfl, rfl⟩ | ⟨rfl, rfl⟩ | ⟨rfl, rfl⟩ | ⟨rfl, rfl⟩
    · exact ⟨.cmd, rfl, rfl⟩
    · exact ⟨.status, rfl, statusWord_eq_ofNat s.status⟩
    · exact ⟨.crc, rfl, (BitVec.ofNat_toNat ..).symm⟩
    · exact ⟨.lsum, rfl, (BitVec.ofNat_toNat ..).symm⟩
    · exact ⟨.lrc, rfl, negate8_zeroExtend_eq_ofNat s.lsum⟩
    · exact ⟨.slave, rfl, (BitVec.ofNat_toNat ..).symm⟩
    · exact ⟨.func, rfl, (BitVec.ofNat_toNat ..).symm⟩
    · exact ⟨.plen, rfl, (BitVec.ofNat_toNat ..).symm⟩
    · exact ⟨.flen, rfl, (BitVec.ofNat_toNat ..).symm⟩
    · exact ⟨.rxchk, rfl, (BitVec.ofNat_toNat ..).symm⟩
    · exact ⟨.caps, rfl, capsWord_eq_ofNat hl⟩
  rw [step_read32 hp, hv]
  rfl

/-- Settles O8: each offset is that of a register other than CMD, and the listed state is the one its write gives. -/
theorem registerWriteStoresItsBits : Obligations.RegisterWriteStoresItsBits := by
  intro s off v t rest hmem hp
  obtain ⟨r, hr, rfl, rfl⟩ : ∃ r, r ≠ Reg.cmd ∧ off = regOffset r ∧ t = s.writeReg v r := by
    simp only [List.mem_cons, List.not_mem_nil, or_false, Prod.mk.injEq, BitVec.ofNat_toNat] at hmem
    rcases hmem with ⟨rfl, rfl⟩ | ⟨rfl, rfl⟩ | ⟨rfl, rfl⟩ | ⟨rfl, rfl⟩ | ⟨rfl, rfl⟩ | ⟨rfl, rfl⟩ | ⟨rfl, rfl⟩ |
      ⟨rfl, rfl⟩ | ⟨rfl, rfl⟩ | ⟨rfl, rfl⟩
    · exact ⟨.status, by decide, rfl, rfl⟩
    · exact ⟨.crc, by decide, rfl, rfl⟩
    · exact ⟨.lsum, by decide, rfl, rfl⟩
    · exact ⟨.lrc, by decide, rfl, rfl⟩
    · exact ⟨.slave, by decide, rfl, rfl⟩
    · exact ⟨.func, by decide, rfl, rfl⟩
    · exact ⟨.plen, by decide, rfl, rfl⟩
    · exact ⟨.flen, by decide, rfl, rfl⟩
    · exact ⟨.rxchk, by decide, rfl, rfl⟩
    · exact ⟨.caps, by decide, rfl, rfl⟩
  exact step_write32 hr hp

/-! ### Buffers -/

/-- Settles O9, for each buffer by the write's effect on its memory. -/
theorem bufferWriteStoresOneByte : Obligations.BufferWriteStoresOneByte := by
  intro s i b rest hl
  refine ⟨fun hi hp => ?_, fun hi hp => ?_⟩ <;> rw [Nat.add_assoc] at hp
  · exact ⟨_, step_write8 (b := .pbuf) hl hi hp, Memory.get?_set_self s.pbuf i b,
      fun j hj => Memory.get?_set_ne s.pbuf b hj⟩
  · exact ⟨_, step_write8 (b := .fbuf) hl hi hp, Memory.get?_set_self s.fbuf i b,
      fun j hj => Memory.get?_set_ne s.fbuf b hj⟩

/-- Settles O10: the offset is that of a byte of one buffer, and the read gives that byte or the next draw. -/
theorem bufferReadReturnsByteOrDraw : Obligations.BufferReadReturnsByteOrDraw := by
  intro s i m base rest hl hbuf hp
  obtain ⟨b, rfl, rfl, hi⟩ : ∃ b, base = bufferBase b ∧ m = s.buffer b ∧ i < bufferSize s.cfg b := by
    rcases hbuf with ⟨rfl, rfl, hi⟩ | ⟨rfl, rfl, hi⟩
    · exact ⟨.pbuf, rfl, rfl, hi⟩
    · exact ⟨.fbuf, rfl, rfl, hi⟩
  rw [Nat.add_assoc] at hp
  exact ⟨_, fun w hw => Memory.read_of_written s.draws hw, Memory.read_of_unwritten s.draws, step_read8 hl hi hp⟩

end Sys2Proof.Machine
end

section
/-!
PROOFS. Which accesses are refused (20_memory.md R53; log 7): the port's tests on an address beside those of R51 and
R52, and no command among the reasons.
-/

namespace Sys2Proof.Machine

/-- A register sits at every multiple of 4 inside 0x0000 to 0x002B, and nowhere else (R50). -/
theorem exists_registerAt_iff {off : Nat} : (∃ r, registerAt off = .ok r) ↔ off ≤ 0x2B ∧ off % 4 = 0 := by
  constructor
  · rintro ⟨r, h⟩
    rw [registerAt_eq_ok_iff.mp h]
    cases r <;> decide
  · rintro ⟨hle, hmod⟩
    have hslots : ∀ k < 11, (regOfSlot k).isSome = true := by decide
    obtain ⟨r, hr⟩ := Option.isSome_iff_exists.mp (hslots (off / 4) (by omega))
    exact ⟨r, registerAt_eq_ok_iff.mpr (by rw [regOffset_of_regOfSlot hr]; omega)⟩

/-- The offsets of buffer bytes (R50). -/
theorem exists_bufferByteAt_iff {p : Params} (hl : p.legal = true) {off : Nat} : (∃ bi, bufferByteAt p off = .ok bi) ↔
    0x1000 ≤ off ∧ off < 0x1000 + p.pbufSize ∨ 0x2000 ≤ off ∧ off < 0x2000 + p.fbufSize := by
  constructor
  · rintro ⟨⟨b, i⟩, h⟩
    obtain ⟨rfl, hi⟩ := (bufferByteAt_eq_ok_iff hl).mp h
    cases b <;> simp only [bufferBase, bufferSize] at hi ⊢ <;> omega
  · rintro (⟨hlo, hhi⟩ | ⟨hlo, hhi⟩)
    · exact ⟨(.pbuf, off - 0x1000), (bufferByteAt_eq_ok_iff hl).mpr
        ⟨by simp only [bufferBase]; omega, by simp only [bufferSize]; omega⟩⟩
    · exact ⟨(.fbuf, off - 0x2000), (bufferByteAt_eq_ok_iff hl).mpr
        ⟨by simp only [bufferBase]; omega, by simp only [bufferSize]; omega⟩⟩

/-- A computation of two stages and a total end succeeds when both stages do. -/
theorem exists_bind_pure_eq_ok_iff {ε α β γ : Type} {x : Except ε α} {g : α → Except ε β} {f : β → γ} :
    (∃ q, (x >>= fun a => g a >>= fun b => pure (f b)) = .ok q) ↔ ∃ a, x = .ok a ∧ ∃ b, g a = .ok b := by
  cases x with
  | error e => simp [bind, Except.bind]
  | ok a => cases h : g a <;> simp [bind, Except.bind, pure, Except.pure, h]

/-- The addresses of registers, as R51 has them for a read or a write. -/
theorem exists_register_at_address_iff (p : Params) (addr : Nat) :
    (∃ off, windowOffset p addr = .ok off ∧ ∃ r, registerAt off = .ok r) ↔
      HostAccess.wellFormed p (.read32 addr) = true := by
  simp only [exists_registerAt_iff, HostAccess.wellFormed, Bool.and_eq_true, decide_eq_true_eq, beq_iff_eq]
  rcases windowOffset_cases p addr with ⟨hout, h⟩ | ⟨off, rfl, _, h⟩
  · simp only [h, reduceCtorEq, false_and, exists_false, false_iff]; omega
  · simp [h]

/-- The addresses of buffer bytes, as R52 has them for a read or a write. -/
theorem exists_bufferByte_at_address_iff {p : Params} (hl : p.legal = true) (addr : Nat) :
    (∃ off, windowOffset p addr = .ok off ∧ ∃ bi, bufferByteAt p off = .ok bi) ↔
      HostAccess.wellFormed p (.read8 addr) = true := by
  simp only [exists_bufferByteAt_iff hl, HostAccess.wellFormed, Bool.or_eq_true, Bool.and_eq_true, decide_eq_true_eq]
  rw [Params.legal_iff] at hl
  rcases windowOffset_cases p addr with ⟨hout, h⟩ | ⟨off, rfl, _, h⟩
  · simp only [h, reduceCtorEq, false_and, exists_false, false_iff]; omega
  · simp only [h, Except.ok.injEq, exists_eq_left']; omega

/-- The port accepts exactly the accesses that are well formed by R51 and R52. -/
theorem exists_request_iff {p : Params} (hl : p.legal = true) (a : HostAccess) :
    (∃ q, request p a = .ok q) ↔ a.wellFormed p = true := by
  cases a with
  | read32 addr => exact exists_bind_pure_eq_ok_iff.trans (exists_register_at_address_iff p addr)
  | write32 addr v => exact exists_bind_pure_eq_ok_iff.trans (exists_register_at_address_iff p addr)
  | read8 addr => exact exists_bind_pure_eq_ok_iff.trans (exists_bufferByte_at_address_iff hl addr)
  | write8 addr v => exact exists_bind_pure_eq_ok_iff.trans (exists_bufferByte_at_address_iff hl addr)
  | otherWidth bits addr =>
    cases h : windowOffset p addr <;> simp [request, HostAccess.wellFormed, h, bind, Except.bind]

/-- A step is refused exactly when the port refuses its access: no command refuses (R220). -/
theorem step_refused_iff {s : State} {a : HostAccess} {rest : List HostAccess} (hp : s.hostProgram = a :: rest) :
    (∃ r, step s = .refused r) ↔ ¬ ∃ q, request s.cfg a = .ok q := by
  rcases step_cases s with ⟨hnil, _⟩ | ⟨a', rest', hp', hcase⟩
  · simp [hp] at hnil
  obtain ⟨rfl, rfl⟩ := List.cons.inj (hp.symm.trans hp')
  rcases hcase with ⟨r, hr, hs⟩ | ⟨w, hr, hs⟩ | ⟨q, hr, _, hs⟩
  · simp [hr, hs]
  · obtain ⟨t, ht, _⟩ := runCommandWord_commandLeaves w (s.setHostProgram rest)
    simp [hr, hs, ht]
  · simp [hr, hs]

/-- Settles O12: a step is refused exactly when the port refuses its access, and there is no fault to raise. -/
theorem refusesExactlyTheAccessesOutsideTheSpec : Obligations.RefusesExactlyTheAccessesOutsideTheSpec := by
  intro s a rest hl hp
  refine ⟨?_, fun r => nomatch r⟩
  rw [step_refused_iff hp, exists_request_iff hl, Bool.not_eq_true]

end Sys2Proof.Machine
end

section
/-!
PROOFS. The decoder and the encoder (30_encoding.md R70 to R73): each row of the opcode map selects exactly the words
of its commands, and the words of all the rows are those that R72 calls legal.
-/

namespace Sys2Proof

/-! ### The rows of the opcode map -/

/-- A row is of one of two kinds: the one word of a command, or the words of an opcode with any IMM8 (R73). -/
theorem opcodeTable_row_cases {r : OpcodeRow} (hr : r ∈ opcodeTable) :
    (∃ i, r = ⟨encode i, 0xFFFFFFFF, fun _ => i⟩) ∨
    ∃ op f, r = ⟨commandWord op 0, 0xFFFF00FF, f⟩ ∧ ∀ b, encode (f b) = commandWord op b := by
  revert r
  simp only [opcodeTable, List.forall_mem_cons]
  exact ⟨.inl ⟨.crcInit, rfl⟩, .inr ⟨0x02, .crcByte, rfl, fun _ => rfl⟩, .inl ⟨.crcFbuf, rfl⟩,
    .inl ⟨.lrcInit, rfl⟩, .inr ⟨0x09, .lrcByte, rfl, fun _ => rfl⟩, .inl ⟨.lrcFbuf, rfl⟩,
    .inl ⟨.rtuEncode, rfl⟩, .inl ⟨.rtuDecode, rfl⟩, .inl ⟨.asciiEncode, rfl⟩, .inl ⟨.asciiDecode, rfl⟩,
    .inl ⟨.softReset, rfl⟩, nofun⟩

/-- A row selects a word when the word is the encoding of the command the row builds from it. -/
theorem selects_iff_eq_encode {r : OpcodeRow} (hr : r ∈ opcodeTable) (w : HostWord) :
    r.selects w = true ↔ w = encode (r.build (immField w)) := by
  rcases opcodeTable_row_cases hr with ⟨i, rfl⟩ | ⟨op, f, rfl, hf⟩
  · exact selects_full (encode i) w _
  · rw [selects_imm rfl, hf]
    constructor
    · rintro ⟨hrsv, rfl⟩
      exact eq_commandWord_of_rsv hrsv
    · intro h
      exact ⟨by rw [h, rsvField_commandWord], by rw [h, opField_commandWord]⟩

/-- A row selects only words of its own opcode. -/
theorem opField_pattern_of_selects {r : OpcodeRow} (hr : r ∈ opcodeTable) {w : HostWord} (h : r.selects w = true) :
    opField r.pattern = opField w := by
  rcases opcodeTable_row_cases hr with ⟨i, rfl⟩ | ⟨op, f, rfl, _⟩
  · rw [(selects_full _ w _).mp h]
  · rw [opField_commandWord, ((selects_imm rfl w f).mp h).2]

/-- No opcode stands in two rows. -/
theorem opcodes_nodup : (opcodeTable.map fun r => opField r.pattern).Nodup := by decide

/-- At most one row selects a word, so the order of the rows does not matter. -/
theorem row_unique {r r' : OpcodeRow} (hr : r ∈ opcodeTable) (hr' : r' ∈ opcodeTable) {w : HostWord}
    (h : r.selects w = true) (h' : r'.selects w = true) : r = r' :=
  List.inj_on_of_nodup_map opcodes_nodup hr hr'
    ((opField_pattern_of_selects hr h).trans (opField_pattern_of_selects hr' h').symm)

/-- Every command is built by a row, from the IMM8 of its own word. -/
theorem exists_row_build_encode (i : Instr) : ∃ r ∈ opcodeTable, r.build (immField (encode i)) = i := by
  cases i with
  | crcByte b => exact ⟨⟨0x00000002, 0xFFFF00FF, fun b => .crcByte b⟩, by simp [opcodeTable], by simp [encode]⟩
  | lrcByte b => exact ⟨⟨0x00000009, 0xFFFF00FF, fun b => .lrcByte b⟩, by simp [opcodeTable], by simp [encode]⟩
  | crcInit | crcFbuf | lrcInit | lrcFbuf | rtuEncode | rtuDecode | asciiEncode | asciiDecode | softReset =>
    simp [opcodeTable]

/-! ### Decoding and encoding -/

theorem selects_of_find? {w : HostWord} {r : OpcodeRow} (h : opcodeTable.find? (fun r => r.selects w) = some r) :
    r ∈ opcodeTable ∧ r.selects w = true :=
  ⟨List.mem_of_find?_eq_some h, List.find?_some (p := fun r : OpcodeRow => r.selects w) h⟩

/-- The decoder answers the command of a row that selects the word. -/
theorem decode_eq_ok_iff_exists_row {w : HostWord} {i : Instr} :
    decode w = .ok i ↔ ∃ r ∈ opcodeTable, r.selects w = true ∧ r.build (immField w) = i := by
  unfold decode
  constructor
  · intro h
    split at h
    next r hfind =>
      obtain ⟨hr, hsel⟩ := selects_of_find? hfind
      exact ⟨r, hr, hsel, Except.ok.inj h⟩
    next => cases h
  · rintro ⟨r, hr, hsel, rfl⟩
    split
    next r' hfind =>
      obtain ⟨hr', hsel'⟩ := selects_of_find? hfind
      rw [row_unique hr hr' hsel hsel']
    next hnone => exact absurd hsel (List.find?_eq_none.mp hnone r hr)

theorem decode_eq_ok_iff (w : HostWord) (i : Instr) : decode w = .ok i ↔ w = encode i := by
  rw [decode_eq_ok_iff_exists_row]
  constructor
  · rintro ⟨r, hr, hsel, rfl⟩
    exact (selects_iff_eq_encode hr w).mp hsel
  · rintro rfl
    obtain ⟨r, hr, hbuild⟩ := exists_row_build_encode i
    exact ⟨r, hr, (selects_iff_eq_encode hr _).mpr (by rw [hbuild]), hbuild⟩

/-- Settles O2: the one row that selects a word builds the command whose encoding it is. -/
theorem decodesExactlyTheEncodings : Obligations.DecodesExactlyTheEncodings := decode_eq_ok_iff

theorem decode_encode (i : Instr) : decode (encode i) = .ok i := (decode_eq_ok_iff _ i).mpr rfl

/-! ### Illegal words -/

theorem opField_toNat (w : HostWord) : (opField w).toNat = w.toNat % 256 := by
  simp [opField, BitVec.extractLsb'_toNat]

theorem immField_toNat (w : HostWord) : (immField w).toNat = w.toNat / 256 % 256 := by
  simp [immField, BitVec.extractLsb'_toNat, Nat.shiftRight_eq_div_pow]

theorem rsvField_toNat (w : HostWord) : (rsvField w).toNat = w.toNat / 65536 := by
  have := w.isLt
  simp only [rsvField, BitVec.extractLsb'_toNat, Nat.shiftRight_eq_div_pow]
  omega

/-- The words R72 leaves legal, by their fields as numbers. -/
theorem commandWordLegal_iff (w : HostWord) :
    commandWordLegal w = true ↔ w.toNat / 65536 = 0 ∧
      (w.toNat % 256 ∈ opcodesWithImmediate ∨
        w.toNat % 256 ∈ opcodesWithoutImmediate ∧ w.toNat / 256 % 256 = 0) := by
  simp only [commandWordLegal, Bool.and_eq_true, Bool.or_eq_true, beq_iff_eq, List.contains_iff_mem]

theorem exists_encode_of_opcodesWithImmediate {op : Byte} (h : op.toNat ∈ opcodesWithImmediate) (b : Byte) :
    ∃ i, encode i = commandWord op b := by
  have hall : ∀ n ∈ opcodesWithImmediate, ∃ i, encode i = commandWord (BitVec.ofNat 8 n) b := by
    simp only [opcodesWithImmediate, List.forall_mem_cons]
    exact ⟨⟨.crcByte b, rfl⟩, ⟨.lrcByte b, rfl⟩, nofun⟩
  simpa using hall _ h

theorem exists_encode_of_opcodesWithoutImmediate {op : Byte} (h : op.toNat ∈ opcodesWithoutImmediate) :
    ∃ i, encode i = commandWord op 0 := by
  have hall : ∀ n ∈ opcodesWithoutImmediate, ∃ i, encode i = commandWord (BitVec.ofNat 8 n) 0 := by
    simp only [opcodesWithoutImmediate, List.forall_mem_cons]
    exact ⟨⟨.crcInit, rfl⟩, ⟨.crcFbuf, rfl⟩, ⟨.lrcInit, rfl⟩, ⟨.lrcFbuf, rfl⟩, ⟨.rtuEncode, rfl⟩,
      ⟨.rtuDecode, rfl⟩, ⟨.asciiEncode, rfl⟩, ⟨.asciiDecode, rfl⟩, ⟨.softReset, rfl⟩, nofun⟩
  simpa using hall _ h

/-- The encoder writes legal words only (`Laws.EncodeLegal`). -/
theorem commandWordLegal_encode (i : Instr) : commandWordLegal (encode i) = true := by
  cases i with
  | crcInit => exact Laws.EncodeLegal.crcInit
  | crcByte b => exact Laws.EncodeLegal.crcByte b
  | crcFbuf => exact Laws.EncodeLegal.crcFbuf
  | lrcInit => exact Laws.EncodeLegal.lrcInit
  | lrcByte b => exact Laws.EncodeLegal.lrcByte b
  | lrcFbuf => exact Laws.EncodeLegal.lrcFbuf
  | rtuEncode => exact Laws.EncodeLegal.rtuEncode
  | rtuDecode => exact Laws.EncodeLegal.rtuDecode
  | asciiEncode => exact Laws.EncodeLegal.asciiEncode
  | asciiDecode => exact Laws.EncodeLegal.asciiDecode
  | softReset => exact Laws.EncodeLegal.softReset

/-- The legal words of R72 are the encodings. -/
theorem commandWordLegal_iff_exists_encode (w : HostWord) : commandWordLegal w = true ↔ ∃ i, encode i = w := by
  constructor
  · rw [commandWordLegal_iff, ← opField_toNat, ← immField_toNat, ← rsvField_toNat]
    rintro ⟨hrsv, hop⟩
    rw [eq_commandWord_of_rsv (BitVec.eq_of_toNat_eq hrsv)]
    rcases hop with hop | ⟨hop, himm⟩
    · exact exists_encode_of_opcodesWithImmediate hop _
    · rw [show immField w = 0 from BitVec.eq_of_toNat_eq himm]
      exact exists_encode_of_opcodesWithoutImmediate hop
  · rintro ⟨i, rfl⟩
    exact commandWordLegal_encode i

/-- The decoder rejects a word exactly when it is not legal by R72. -/
theorem exists_decode_eq_error_iff (w : HostWord) : (∃ e, decode w = .error e) ↔ commandWordLegal w = false := by
  rw [← Bool.not_eq_true, commandWordLegal_iff_exists_encode]
  simp only [eq_comm (b := w), ← decode_eq_ok_iff]
  cases decode w <;> simp

/-- Settles O3: the rejected words are those R72 leaves illegal, and its grounds are the negation of a legal word's
conditions. -/
theorem illegalWordsAreThoseOfTheThreeGrounds : Obligations.IllegalWordsAreThoseOfTheThreeGrounds := by
  intro w
  dsimp only
  rw [exists_decode_eq_error_iff, ← Bool.not_eq_true, commandWordLegal_iff]
  tauto

/-! ### The words of the opcode map -/

/-- Settles O1: the legal words are encodings, written out, and no row selects the others. -/
theorem specWordsDecode : Obligations.SpecWordsDecode :=
  ⟨⟨decode_encode .crcInit, decode_encode (.crcByte 0x01), decode_encode (.crcByte 0xCD), decode_encode .crcFbuf,
    decode_encode .lrcInit, decode_encode (.lrcByte 0x6B), decode_encode .lrcFbuf, decode_encode .rtuEncode,
    decode_encode .rtuDecode, decode_encode .asciiEncode, decode_encode .asciiDecode, decode_encode .softReset⟩,
    by decide⟩

end Sys2Proof
end

section
/-!
PROOFS. The laws of the two checksums as functions (40_checksum.md R100 to R103).
-/

namespace Sys2Proof.Machine

/-! ### The CRC -/

/-- Settles O19: after the string, its CRC's own two bytes shift the CRC out. -/
theorem crcOfStringWithItsCrcIsZero : Obligations.CrcOfStringWithItsCrcIsZero := by
  intro s
  rw [crc16, crcCont_append]
  exact crcStep_lo_hi (crc16 s)

/-- Any number of rounds is linear over exclusive-or. -/
theorem crcRounds_xor (n : Nat) (a b : Word) :
    Nat.repeat crcShift n (a ^^^ b) = Nat.repeat crcShift n a ^^^ Nat.repeat crcShift n b := by
  induction n with
  | zero => rfl
  | succ n ih => simp only [Nat.repeat, ih, crcShift_xor]

/-- Settles O20: the operands of the rounds are linear in the CRC and the byte, and so are the rounds. -/
theorem crcStepIsLinear : Obligations.CrcStepIsLinear := by
  intro c₁ c₂ b₁ b₂
  have hin : c₁ ^^^ c₂ ^^^ zext16 (b₁ ^^^ b₂) = (c₁ ^^^ zext16 b₁) ^^^ (c₂ ^^^ zext16 b₂) := by
    rw [zext16_xor]; ac_rfl
  rw [crcStep, hin, crcRounds_xor, crcStep, crcStep]

/-- A round tests the low bit of the register, its remainder modulo 2 (R100). -/
theorem crcShift_eq_ite_mod_two (c : Word) :
    crcShift c = if c.toNat % 2 = 1 then (c >>> 1) ^^^ 0xA001 else c >>> 1 := by
  have hbit : c.getLsbD 0 = decide (c.toNat % 2 = 1) := by
    rw [← BitVec.testBit_toNat, Nat.testBit_zero]
  simp only [crcShift, hbit, decide_eq_true_eq]
  rfl

theorem zext16_eq_ofNat (b : Byte) : zext16 b = BitVec.ofNat 16 b.toNat := (BitVec.ofNat_toNat 16 b).symm

/-! ### The sum and the LRC -/

/-- The sum of a string is the integer sum of its bytes modulo 256 (R103). -/
theorem lsum_toNat (s : List Byte) : (lsum s).toNat = (s.map BitVec.toNat).sum % 256 := by
  induction s with
  | nil => rfl
  | cons b s ih => rw [lsum_cons, BitVec.toNat_add, ih, List.map_cons, List.sum_cons, Nat.add_mod_mod]

theorem lsum_eq_ofNat (s : List Byte) : lsum s = BitVec.ofNat 8 ((s.map BitVec.toNat).sum % 256) := by
  rw [← lsum_toNat, BitVec.ofNat_toNat, BitVec.setWidth_eq]

/-- Settles O21, from the LRC as the negated sum. -/
theorem lrcIsTheTwosComplementOfTheSum : Obligations.LrcIsTheTwosComplementOfTheSum := by
  intro s
  refine ⟨lsum_toNat s, ?_, (lrc_eq_iff s (lrc s)).mp rfl, ?_⟩
  · rw [lrc_eq_neg, BitVec.toNat_neg, lsum_toNat]
  · rw [lrc_eq_neg, BitVec.neg_eq_not_add, ← BitVec.xor_allOnes]
    rfl

end Sys2Proof.Machine
end

section
/-!
PROOFS. The checksum commands (40_checksum.md R104 to R107, R110 to R113): one after another over a string, or at once
over FBUF.
-/

namespace Sys2Proof.Machine

/-! ### The words of the commands that take a byte -/

/-- A command word as a number: the opcode plus 256 times IMM8 (30_encoding.md R70). -/
theorem commandWord_eq_ofNat (op imm : Byte) : commandWord op imm = BitVec.ofNat 32 (op.toNat + 256 * imm.toNat) := by
  have hop : (commandWord op imm).toNat % 256 = op.toNat := by rw [← opField_toNat, opField_commandWord]
  have himm : (commandWord op imm).toNat / 256 % 256 = imm.toNat := by rw [← immField_toNat, immField_commandWord]
  have hrsv : (commandWord op imm).toNat / 65536 = 0 := by rw [← rsvField_toNat, rsvField_commandWord]; rfl
  apply BitVec.eq_of_toNat_eq
  rw [BitVec.toNat_ofNat]
  omega

theorem decode_ofNat_crcByte (b : Byte) : decode (BitVec.ofNat 32 (0x00000002 + 256 * b.toNat)) = .ok (.crcByte b) :=
  commandWord_eq_ofNat 0x02 b ▸ decode_encode (.crcByte b)

theorem decode_ofNat_lrcByte (b : Byte) : decode (BitVec.ofNat 32 (0x00000009 + 256 * b.toNat)) = .ok (.lrcByte b) :=
  commandWord_eq_ofNat 0x09 b ▸ decode_encode (.lrcByte b)

/-! ### The CRC commands -/

/-- Settles O22: the command is these two writes by definition. -/
theorem crcInitSetsInitialValue : Obligations.CrcInitSetsInitialValue := ⟨decode_encode .crcInit, fun _ => rfl⟩

/-- Settles O23: the command's `crcStep` is the statement's eight rounds. -/
theorem crcByteFeedsOneByte : Obligations.CrcByteFeedsOneByte := by
  intro s b
  refine ⟨decode_ofNat_crcByte b, ?_⟩
  simp only [← crcShift_eq_ite_mod_two, ← zext16_eq_ofNat, ← crcStep_eq]
  rfl

theorem exec_crcFbuf_of_lt {s : State} (h : s.cfg.fbufSize < s.flen.toNat) :
    exec .crcFbuf s = .next (s.setStatus (errorStatus .overflow)) :=
  ((execCrcFbuf_cases s).resolve_right fun hfits => h.not_ge hfits.1).2

theorem exec_crcFbuf_of_le {s : State} (h : s.flen.toNat ≤ s.cfg.fbufSize) : exec .crcFbuf s =
    .next (((s.useDraws s.flen.toNat).setCrc (crc16 (s.fbufBytes s.flen.toNat))).setStatus okStatus) :=
  ((execCrcFbuf_cases s).resolve_left fun hover => h.not_gt hover.1).2

/-- Settles O24, by the length check's two outcomes. -/
theorem crcFbufComputesFromInitialValue : Obligations.CrcFbufComputesFromInitialValue :=
  ⟨decode_encode .crcFbuf, fun _ => ⟨exec_crcFbuf_of_lt, fun hle => ⟨_, exec_crcFbuf_of_le hle⟩⟩⟩

/-- CRC_BYTEs one after another continue the CRC over their bytes (R102, R105). -/
theorem execAll_crcBytes (s : State) (bs : List Byte) :
    execAll (bs.map .crcByte) (s.setStatus okStatus) = .next ((s.setCrc (crcCont s.crc bs)).setStatus okStatus) := by
  induction bs generalizing s with
  | nil => rfl
  | cons b bs ih => exact ih (s.setCrc (crcStep s.crc b))

/-- Settles O28: the streamed CRC continues from the initial value, and CRC_FBUF reads the string as it stands. -/
theorem streamedCrcEqualsBufferedCrc : Obligations.StreamedCrcEqualsBufferedCrc := by
  intro s bs
  refine ⟨execAll_crcBytes (s.setCrc 0xFFFF) bs, fun hfits hn hf => ?_⟩
  rw [exec_crcFbuf_of_le (hn.trans_le hfits), fbufBytes_of_holds hn hf, hn]
  rfl

/-! ### The LRC commands -/

/-- The LRC register reads the two's complement of LSUM (10_state.md R26). -/
theorem readReg_lrc (t : State) : t.readReg .lrc = BitVec.ofNat 32 (negate8 t.lsum).toNat :=
  (BitVec.ofNat_toNat 32 t.lrcReg).symm

/-- Settles O25: the negation of 0 is 0. -/
theorem lrcInitClearsSum : Obligations.LrcInitClearsSum := by
  refine ⟨decode_encode .lrcInit, fun s => ⟨_, rfl, rfl, ?_⟩⟩
  rw [readReg_lrc, State.setStatus_lsum, State.setLsum_lsum]
  decide

theorem add_eq_ofNat_toNat_add (v b : Byte) : v + b = BitVec.ofNat 8 ((v.toNat + b.toNat) % 256) :=
  BitVec.eq_of_toNat_eq (by simp)

/-- Settles O26: the sum of two bytes is that of their numbers modulo 256. -/
theorem lrcByteAddsOneByte : Obligations.LrcByteAddsOneByte := by
  intro s b
  refine ⟨decode_ofNat_lrcByte b, ?_⟩
  rw [← add_eq_ofNat_toNat_add]
  rfl

theorem exec_lrcFbuf_of_lt {s : State} (h : s.cfg.fbufSize < s.flen.toNat) :
    exec .lrcFbuf s = .next (s.setStatus (errorStatus .overflow)) :=
  ((execLrcFbuf_cases s).resolve_right fun hfits => h.not_ge hfits.1).2

theorem exec_lrcFbuf_of_le {s : State} (h : s.flen.toNat ≤ s.cfg.fbufSize) : exec .lrcFbuf s =
    .next (((s.useDraws s.flen.toNat).setLsum (lsum (s.fbufBytes s.flen.toNat))).setStatus okStatus) :=
  ((execLrcFbuf_cases s).resolve_left fun hover => h.not_gt hover.1).2

/-- Settles O27, by the length check's two outcomes and the sum as a number. -/
theorem lrcFbufSumsFromZero : Obligations.LrcFbufSumsFromZero := by
  refine ⟨decode_encode .lrcFbuf, fun s => ⟨exec_lrcFbuf_of_lt, fun hle => ⟨s.draws + s.flen.toNat, ?_⟩⟩⟩
  rw [exec_lrcFbuf_of_le hle, lsum_eq_ofNat]
  rfl

/-- LRC_BYTEs one after another add their bytes to the running sum (R111). -/
theorem execAll_lrcBytes (s : State) (bs : List Byte) :
    execAll (bs.map .lrcByte) (s.setStatus okStatus) = .next ((s.setLsum (s.lsum + lsum bs)).setStatus okStatus) := by
  induction bs generalizing s with
  | nil => rw [lsum_nil, add_zero]; rfl
  | cons b bs ih =>
    rw [lsum_cons, ← add_assoc]
    exact ih (s.setLsum (s.lsum + b))

/-- Settles O29: the streamed sum starts from zero, the LRC register negates it, and LRC_FBUF reads the string as it
stands. -/
theorem streamedLrcEqualsBufferedLrc : Obligations.StreamedLrcEqualsBufferedLrc := by
  intro s bs
  refine ⟨?_, fun t ht => ?_, fun hfits hn hf => ?_⟩
  · have h := execAll_lrcBytes (s.setLsum 0) bs
    rw [State.setLsum_lsum, zero_add] at h
    exact h
  · rw [readReg_lrc, ht]
    rfl
  · rw [exec_lrcFbuf_of_le (hn.trans_le hfits), fbufBytes_of_holds hn hf, hn]
    rfl

end Sys2Proof.Machine
end

section
/-!
PROOFS. The RTU codec (41_rtu_codec.md R140 to R146): what RTU_ENCODE leaves, what RTU_DECODE leaves of a frame written
as its parts, and one after the other.
-/

namespace Sys2Proof.Machine

/-! ### The two CRC bytes as numbers -/

theorem le16_eq_ofNat (lo hi : Byte) : le16 lo hi = BitVec.ofNat 16 (lo.toNat + 256 * hi.toNat) := by
  rw [← le16_toNat, BitVec.ofNat_toNat, BitVec.setWidth_eq]

theorem eq_le16_iff (c : Word) (lo hi : Byte) : c = le16 lo hi ↔ c.toNat = lo.toNat + 256 * hi.toNat := by
  rw [← le16_toNat, BitVec.toNat_inj]

theorem lo8_eq_ofNat (c : Word) : lo8 c = BitVec.ofNat 8 (c.toNat % 256) := by
  rw [← lo8_toNat, BitVec.ofNat_toNat, BitVec.setWidth_eq]

theorem hi8_eq_ofNat (c : Word) : hi8 c = BitVec.ofNat 8 (c.toNat / 256) := by
  rw [← hi8_toNat, BitVec.ofNat_toNat, BitVec.setWidth_eq]

/-! ### RTU_ENCODE -/

/-- What RTU_ENCODE leaves when its length checks pass (R141). -/
def rtuEncoded (s : State) : State :=
  { s with
    fbuf := s.fbuf.setAll 0 (rtuFrame s.slave s.func (s.pbufBytes s.plen.toNat))
    flen := BitVec.ofNat 16 (s.plen.toNat + 4)
    crc := crc16 (s.slave :: s.func :: s.pbufBytes s.plen.toNat)
    status := okStatus
    draws := s.draws + s.plen.toNat }

theorem exec_rtuEncode_of_lt {s : State} (h : s.cfg.pbufSize < s.plen.toNat ∨ s.cfg.fbufSize < s.plen.toNat + 4) :
    exec .rtuEncode s = .next (s.setStatus (errorStatus .overflow)) :=
  ((execRtuEncode_cases s).resolve_right fun ⟨hp, hf, _⟩ => by omega).2

/-- A payload that fits PBUF has a frame that fits FBUF, when the parameters are legal (R7). -/
theorem exec_rtuEncode_of_le {s : State} (hl : s.cfg.legal = true) (hn : s.plen.toNat ≤ s.cfg.pbufSize) :
    exec .rtuEncode s = .next (rtuEncoded s) := by
  rw [Params.legal_iff] at hl
  obtain ⟨_, _, h⟩ := (execRtuEncode_cases s).resolve_left fun hover => by omega
  refine h.trans (congrArg Host.Outcome.next ?_)
  simp only [State.setFrame, length_rtuFrame, length_pbufBytes]
  rfl

theorem rtuEncoded_flen_toNat {s : State} (hl : s.cfg.legal = true) (hn : s.plen.toNat ≤ s.cfg.pbufSize) :
    (rtuEncoded s).flen.toNat = s.plen.toNat + 4 := by
  rw [Params.legal_iff] at hl
  exact Nat.mod_eq_of_lt (by omega)

/-- The encoded frame is what a command then reads, whatever the draws. -/
theorem rtuEncoded_fbufBytes (s : State) :
    (rtuEncoded s).fbufBytes (s.plen.toNat + 4) = rtuFrame s.slave s.func (s.pbufBytes s.plen.toNat) := by
  have h := Memory.readAll_setAll s.fbuf (rtuEncoded s).draws (rtuFrame s.slave s.func (s.pbufBytes s.plen.toNat))
  rwa [length_rtuFrame, length_pbufBytes] at h

theorem rtuEncoded_get?_of_lt {s : State} {j : Nat} (hj : j < s.plen.toNat + 4) :
    (rtuEncoded s).fbuf.get? j = (rtuFrame s.slave s.func (s.pbufBytes s.plen.toNat))[j]? := by
  have h : j < (rtuFrame s.slave s.func (s.pbufBytes s.plen.toNat)).length := by simpa using hj
  exact (Memory.get?_setAll_of_lt s.fbuf h).trans (List.getElem?_eq_getElem h).symm

theorem rtuEncoded_get?_of_ge {s : State} {j : Nat} (hj : s.plen.toNat + 4 ≤ j) :
    (rtuEncoded s).fbuf.get? j = s.fbuf.get? j :=
  Memory.get?_setAll_of_ge s.fbuf (by simpa using hj)

/-- Settles O30: the length checks' two outcomes, and the frame byte by byte. -/
theorem rtuEncodeBuildsFrame : Obligations.RtuEncodeBuildsFrame := by
  refine ⟨decode_encode .rtuEncode, fun s => ⟨exec_rtuEncode_of_lt, ?_⟩⟩
  intro n p c hl hn
  have hp : p.length = n := length_pbufBytes s n
  have hbyte : ∀ j < n + 4, (rtuEncoded s).fbuf.get? j = (s.slave :: s.func :: (p ++ [lo8 c, hi8 c]))[j]? := by
    intro j hj
    rw [rtuEncoded_get?_of_lt hj, rtuFrame_eq]
  refine ⟨(rtuEncoded s).fbuf, _, exec_rtuEncode_of_le hl hn, hbyte 0 (by omega), hbyte 1 (by omega), fun i hi => ?_,
    ?_, ?_, fun j => rtuEncoded_get?_of_ge⟩
  · rw [Nat.add_comm, hbyte (i + 2) (by omega)]
    exact List.getElem?_append_left (by omega)
  · rw [hbyte (n + 2) (by omega), ← lo8_eq_ofNat, ← hp]
    simp
  · rw [hbyte (n + 3) (by omega), ← hi8_eq_ofNat, ← hp]
    simp

/-- A command reads a written payload as it stands, whatever the draws. -/
theorem pbufBytes_of_holds {s : State} {p : List Byte} (hn : s.plen.toNat = p.length) (h : s.pbuf.Holds 0 p) :
    s.pbufBytes s.plen.toNat = p := by
  rw [hn]
  exact Memory.readAll_of_written s.draws fun k hk => by simpa using h k hk

/-- Writing the same byte string again changes no byte. -/
theorem Memory.get?_setAll_setAll (m : Memory) (i j : Nat) (bs : List Byte) :
    ((m.setAll i bs).setAll i bs).get? j = (m.setAll i bs).get? j := by
  rw [get?_setAll (m.setAll i bs)]
  split_ifs with h
  · rw [get?_setAll, if_pos h]
  · rfl

/-- Settles O31: the frame read back is the one of R140, with the residue of R102; the second encoder reads the same
payload, so it writes the same frame. -/
theorem rtuEncodedFrameHasZeroCrcAndRepeats : Obligations.RtuEncodedFrameHasZeroCrcAndRepeats := by
  intro s p hl hn hfits hp
  have hle : s.plen.toNat ≤ s.cfg.pbufSize := hn.trans_le hfits
  have hread : s.pbufBytes s.plen.toNat = p := pbufBytes_of_holds hn hp
  have hreread : (rtuEncoded s).pbufBytes s.plen.toNat = s.pbufBytes s.plen.toNat :=
    (pbufBytes_of_holds (s := rtuEncoded s) hn hp).trans hread.symm
  have hflen := rtuEncoded_flen_toNat hl hle
  have hframe : (rtuEncoded s).fbufBytes (rtuEncoded s).flen.toNat = rtuFrame s.slave s.func p := by
    rw [hflen, rtuEncoded_fbufBytes, hread]
  have hrewrite : (rtuEncoded (rtuEncoded s)).fbuf =
      (rtuEncoded s).fbuf.setAll 0 (rtuFrame s.slave s.func (s.pbufBytes s.plen.toNat)) :=
    congrArg (fun q => (rtuEncoded s).fbuf.setAll 0 (rtuFrame s.slave s.func q)) hreread
  refine ⟨_, _, exec_rtuEncode_of_le hl hle, exec_rtuEncode_of_le (s := rtuEncoded s) hl hle, hn ▸ hflen, hframe, ?_,
    rfl, congrArg (fun q => crc16 (s.slave :: s.func :: q)) hreread, rfl, fun i => ?_⟩
  · rw [hframe, rtuFrame_eq]
    exact crcOfStringWithItsCrcIsZero (s.slave :: s.func :: p)
  · rw [hrewrite]
    exact Memory.get?_setAll_setAll s.fbuf 0 i _

/-! ### The decoders' common end, by its conditions (R91) -/

theorem getLsbD_seven_iff (f : Byte) : f.getLsbD 7 = true ↔ 128 ≤ f.toNat := by
  rw [show f.getLsbD 7 = f.msb from rfl, BitVec.msb_eq_decide, decide_eq_true_eq]

theorem deliver_exception_nil {f : Byte} (h7 : f.getLsbD 7 = true) (a : Byte) (s : State) :
    deliver a f [] s = .next (s.setStatus (errorStatus .truncated)) :=
  if_pos h7

theorem deliver_exception_cons {f : Byte} (h7 : f.getLsbD 7 = true) (a code : Byte) (rest : List Byte) (s : State) :
    deliver a f (code :: rest) s =
      .next ((s.setAddress a f).setStatus (errorStatus (.exceptionResponse code))) :=
  if_pos h7

theorem deliver_overflow {f : Byte} (h7 : ¬ f.getLsbD 7 = true) (a : Byte) {p : List Byte} {s : State}
    (hp : s.cfg.pbufSize < p.length) : deliver a f p s = .next (s.setStatus (errorStatus .overflow)) :=
  (if_neg h7).trans (if_pos hp)

theorem deliver_success {f : Byte} (h7 : ¬ f.getLsbD 7 = true) (a : Byte) {p : List Byte} {s : State}
    (hp : p.length ≤ s.cfg.pbufSize) :
    deliver a f p s = .next (((s.setAddress a f).setPayload p).setStatus okStatus) :=
  (if_neg h7).trans (if_neg hp.not_gt)

/-! ### RTU_DECODE -/

/-- Settles O32, by the two length checks in their order. -/
theorem rtuDecodeLengthErrors : Obligations.RtuDecodeLengthErrors := by
  intro s
  exact ⟨fun hover => if_pos hover, fun hle hshort => (if_neg hle.not_gt).trans (if_pos hshort)⟩

/-- RTU_DECODE after its checksum stage (R145): computed and received CRC kept, the frame's draws used. -/
def rtuKept (s : State) (c rx : Word) : State :=
  { s with crc := c, rxchk := rx, draws := s.draws + s.flen.toNat }

section
variable {s : State} {a f lo hi : Byte} {p : List Byte} (hn : s.flen.toNat = p.length + 4)
  (hle : s.flen.toNat ≤ s.cfg.fbufSize) (hbytes : s.fbufBytes s.flen.toNat = a :: f :: (p ++ [lo, hi]))
include hn hle hbytes

theorem exec_rtuDecode_of_crc_ne (hcrc : crc16 (a :: f :: p) ≠ le16 lo hi) : exec .rtuDecode s =
    .next ((rtuKept s (crc16 (a :: f :: p)) (le16 lo hi)).setStatus (errorStatus .checksumMismatch)) :=
  (execRtuDecode_parts hn hle hbytes).trans (if_pos hcrc)

theorem exec_rtuDecode_of_crc_eq (hcrc : crc16 (a :: f :: p) = le16 lo hi) :
    exec .rtuDecode s = deliver a f p (rtuKept s (crc16 (a :: f :: p)) (crc16 (a :: f :: p))) :=
  (execRtuDecode_parts hn hle hbytes).trans (by rw [← hcrc]; exact if_neg (not_not_intro rfl))

end

/-- Settles O33: the checksum stage of a wrong CRC. -/
theorem rtuDecodeChecksumMismatch : Obligations.RtuDecodeChecksumMismatch := by
  intro s a f lo hi p hn hle hbytes hcrc
  rw [exec_rtuDecode_of_crc_ne hn hle hbytes (mt (eq_le16_iff ..).mp hcrc), le16_eq_ofNat]
  rfl

/-- Settles O34: past the checksum stage, by whether there is a payload byte. -/
theorem rtuDecodeExceptionResponse : Obligations.RtuDecodeExceptionResponse := by
  intro s a f lo hi p hn hle hbytes hcrc hf
  have h7 := (getLsbD_seven_iff f).mpr hf
  rw [exec_rtuDecode_of_crc_eq hn hle hbytes ((eq_le16_iff ..).mpr hcrc)]
  refine ⟨?_, ?_⟩
  · rintro rfl
    exact deliver_exception_nil h7 ..
  · rintro code more rfl
    exact deliver_exception_cons h7 ..

/-- Settles O35: past the checksum stage, by the length check on the payload. -/
theorem rtuDecodePayloadOverflow : Obligations.RtuDecodePayloadOverflow := by
  intro s a f lo hi p hn hle hbytes hcrc hf hp
  rw [exec_rtuDecode_of_crc_eq hn hle hbytes ((eq_le16_iff ..).mpr hcrc)]
  exact deliver_overflow (mt (getLsbD_seven_iff f).mp hf.not_ge) a hp

/-- A buffer holds the byte string just written from index 0. -/
theorem Memory.holds_setAll (m : Memory) (bs : List Byte) : (m.setAll 0 bs).Holds 0 bs := fun k hk => by
  rw [Nat.zero_add, get?_setAll_of_lt m hk, List.getElem?_eq_getElem hk]

/-- Settles O36: past the checksum stage, the payload fits and is delivered. -/
theorem rtuDecodeUnpacksFrame : Obligations.RtuDecodeUnpacksFrame := by
  intro s a f lo hi p hn hle hbytes hcrc hf hp
  refine ⟨s.pbuf.setAll 0 p, ?_, Memory.holds_setAll s.pbuf p, fun j => Memory.get?_setAll_of_ge s.pbuf⟩
  rw [exec_rtuDecode_of_crc_eq hn hle hbytes ((eq_le16_iff ..).mpr hcrc)]
  exact deliver_success (mt (getLsbD_seven_iff f).mp hf.not_ge) a hp

/-! ### Encoding, then decoding -/

/-- Writing back the bytes that a command read of a buffer keeps every byte written there. -/
theorem Memory.get?_setAll_readAll {m : Memory} {i : Nat} {b : Byte} (d n : Nat) (h : m.get? i = some b) :
    (m.setAll 0 (m.readAll d n)).get? i = some b := by
  by_cases hi : i < n
  · rw [get?_setAll, if_pos (by simpa using hi), Nat.sub_zero, getElem?_readAll m d hi, read_of_written _ h]
  · rw [get?_setAll_of_ge m (by simpa using hi), h]

/-- RTU_DECODE finds the frame of R140 that RTU_ENCODE has left, whose CRC is right, and delivers its parts. -/
theorem exec_rtuDecode_rtuEncoded {s : State} (hl : s.cfg.legal = true) (hn : s.plen.toNat ≤ s.cfg.pbufSize) :
    exec .rtuDecode (rtuEncoded s) = deliver s.slave s.func (s.pbufBytes s.plen.toNat)
      (rtuKept (rtuEncoded s) (rtuEncoded s).crc (rtuEncoded s).crc) := by
  have hflen := rtuEncoded_flen_toNat hl hn
  have hfits : (rtuEncoded s).flen.toNat ≤ (rtuEncoded s).cfg.fbufSize := by
    rw [Params.legal_iff] at hl
    exact hflen.trans_le (show s.plen.toNat + 4 ≤ s.cfg.fbufSize by omega)
  refine exec_rtuDecode_of_crc_eq ?_ hfits ?_ (le16_lo8_hi8 _).symm
  · rw [hflen, length_pbufBytes]
  · rw [hflen, rtuEncoded_fbufBytes, rtuFrame_eq]

/-- Settles O37, by the outcomes of delivering the encoded parts; the payload came from PBUF, so it fits. -/
theorem rtuRoundTrip : Obligations.RtuRoundTrip := by
  intro s hl hn n p c
  have hp : p.length = n := length_pbufBytes s n
  have hdec := exec_rtuDecode_rtuEncoded hl hn
  refine ⟨rtuEncoded s, ?_⟩
  rcases deliver_cases s.slave s.func p (rtuKept (rtuEncoded s) c c) with
    ⟨h7, hnil, hd⟩ | ⟨code, rest, h7, hcons, hd⟩ | ⟨_, hover, _⟩ | ⟨h7, _, hd⟩
  · refine ⟨_, exec_rtuEncode_of_le hl hn, hdec.trans hd, rfl, rfl, rfl, rfl, rfl, rfl,
      fun hclear => absurd (hclear.symm.trans h7) Bool.false_ne_true, fun _ => ?_⟩
    exact ⟨rfl, fun _ => rfl, fun code hcode => by simp [hnil] at hcode⟩
  · refine ⟨_, exec_rtuEncode_of_le hl hn, hdec.trans hd, rfl, rfl, rfl, rfl, rfl, rfl,
      fun hclear => absurd (hclear.symm.trans h7) Bool.false_ne_true, fun _ => ?_⟩
    refine ⟨rfl, fun h0 => ?_, fun code' hcode => ?_⟩
    · simp [hcons, h0] at hp
    · obtain rfl : code = code' := by simpa [hcons] using hcode
      rfl
  · have hover : s.cfg.pbufSize < p.length := hover
    omega
  · have hplen : BitVec.ofNat 16 p.length = s.plen := by rw [hp, BitVec.ofNat_toNat, BitVec.setWidth_eq]
    refine ⟨_, exec_rtuEncode_of_le hl hn, hdec.trans hd, rfl, hplen, rfl, rfl, rfl, rfl, fun _ => ?_,
      fun hset => absurd (h7.symm.trans hset) Bool.false_ne_true⟩
    exact ⟨rfl, Memory.holds_setAll s.pbuf p, fun i b => Memory.get?_setAll_readAll s.draws n⟩

end Sys2Proof.Machine
end

section
/-!
PROOFS. The errors an RTU frame's CRC detects (41_rtu_codec.md R147, R148): one byte changed in the CRC, or before it.
-/

namespace Sys2Proof.Machine

/-- A word is read back from no other pair of bytes than its own. -/
theorem eq_le16_iff_bytes (c : Word) (lo hi : Byte) : c = le16 lo hi ↔ lo8 c = lo ∧ hi8 c = hi := by
  constructor
  · intro h
    have hc := (eq_le16_iff c lo hi).mp h
    have hlo := lo.isLt
    exact ⟨BitVec.eq_of_toNat_eq (by rw [lo8_toNat]; omega), BitVec.eq_of_toNat_eq (by rw [hi8_toNat]; omega)⟩
  · rintro ⟨rfl, rfl⟩
    exact (le16_lo8_hi8 c).symm

/-- Strings that differ in one byte have different CRCs: that byte's step is one-to-one in the byte, each later step in
the CRC (R102). -/
theorem crc16_set_ne {bs : List Byte} {k : Nat} {b : Byte} (hk : k < bs.length) (hb : bs[k]? ≠ some b) :
    crc16 (bs.set k b) ≠ crc16 bs := by
  have hset : bs.set k b = bs.take k ++ b :: bs.drop (k + 1) := List.set_eq_take_append_cons_drop.trans (if_pos hk)
  have hsplit : bs = bs.take k ++ bs[k] :: bs.drop (k + 1) := by simp
  intro h
  rw [hset] at h
  conv_rhs at h => rw [hsplit]
  rw [crc16, crc16, crcCont_append, crcCont_append] at h
  have hbyte : b = bs[k] := crcStep_right_injective _ (crcCont_injective (bs.drop (k + 1)) h)
  exact hb (by rw [hbyte, List.getElem?_eq_getElem hk])

/-- A string with one byte replaced keeps its first two bytes apart. -/
theorem exists_set_eq_cons_cons (a f b : Byte) (p : List Byte) (k : Nat) :
    ∃ a' f' p', (a :: f :: p).set k b = a' :: f' :: p' ∧ p'.length = p.length :=
  match k with
  | 0 => ⟨b, f, p, rfl, rfl⟩
  | 1 => ⟨a, b, p, rfl, rfl⟩
  | k + 2 => ⟨a, f, p.set k b, rfl, List.length_set⟩

/-- Settles O38: the CRC is computed over bytes left as they were, and read from a pair that is no longer its own. -/
theorem rtuCorruptedCrcByteIsDetected : Obligations.RtuCorruptedCrcByteIsDetected := by
  intro s a f b p k hn hle hk hbytes hb
  rw [rtuFrame_eq] at hbytes hb
  set c := crc16 (a :: f :: p)
  obtain ⟨lo, hi, hset, hne⟩ : ∃ lo hi, (a :: f :: (p ++ [lo8 c, hi8 c])).set k b = a :: f :: (p ++ [lo, hi]) ∧
      ¬ (lo8 c = lo ∧ hi8 c = hi) := by
    rcases hk with rfl | rfl
    · exact ⟨b, hi8 c, by simp, fun h => hb (by simp [h.1])⟩
    · exact ⟨lo8 c, b, by simp, fun h => hb (by simp [h.2])⟩
  exact ⟨_, exec_rtuDecode_of_crc_ne hn hle (hbytes.trans hset) (mt (eq_le16_iff_bytes ..).mp hne), rfl, rfl, rfl, rfl,
    rfl⟩

/-- Settles O39: the CRC bytes are those of the string before the change, whose CRC is another. -/
theorem rtuSingleByteChangeIsDetected : Obligations.RtuSingleByteChangeIsDetected := by
  intro s a f b p k hn hle hk hbytes hb
  have hk : k < (a :: f :: p).length := hk
  obtain ⟨a', f', p', hset, hlen⟩ := exists_set_eq_cons_cons a f b p k
  rw [rtuFrame_eq] at hbytes hb
  simp only [← List.cons_append] at hbytes hb
  rw [List.set_append_left _ _ hk, hset] at hbytes
  rw [List.getElem?_append_left hk] at hb
  have hne := crc16_set_ne hk hb
  rw [hset] at hne
  exact ⟨_, exec_rtuDecode_of_crc_ne (hlen ▸ hn) hle hbytes (by rwa [le16_lo8_hi8]), rfl, rfl, rfl, rfl, rfl⟩

end Sys2Proof.Machine
end

section
/-!
PROOFS. The hex characters of an ASCII frame (42_ascii_codec.md R170 to R172): their values, the characters of a byte
string, and the byte string back from its characters.
-/

namespace Sys2Proof.Machine

/-! ### Characters and values -/

theorem isHex_iff (ch : Byte) : isHex ch = true ↔
    (0x30 ≤ ch.toNat ∧ ch.toNat ≤ 0x39) ∨ (0x41 ≤ ch.toNat ∧ ch.toNat ≤ 0x46) ∨
      (0x61 ≤ ch.toNat ∧ ch.toNat ≤ 0x66) := by
  simp [isHex, or_assoc]

section
variable {ch : Byte}

theorem hexVal_digit_toNat (h : 0x30 ≤ ch.toNat ∧ ch.toNat ≤ 0x39) : (hexVal ch).toNat + 0x30 = ch.toNat := by
  rw [hexVal, if_pos h.2, BitVec.toNat_sub_of_le h.1]
  exact Nat.sub_add_cancel h.1

theorem hexVal_upper_toNat (h : 0x41 ≤ ch.toNat ∧ ch.toNat ≤ 0x46) : (hexVal ch).toNat + 0x37 = ch.toNat := by
  have hge : (0x37 : Byte).toNat ≤ ch.toNat := le_trans (by decide) h.1
  rw [hexVal, if_neg (by omega), if_pos h.2, BitVec.toNat_sub_of_le hge]
  exact Nat.sub_add_cancel hge

theorem hexVal_lower_toNat (h : 0x61 ≤ ch.toNat ∧ ch.toNat ≤ 0x66) : (hexVal ch).toNat + 0x57 = ch.toNat := by
  have hge : (0x57 : Byte).toNat ≤ ch.toNat := le_trans (by decide) h.1
  rw [hexVal, if_neg (by omega), if_neg (by omega), BitVec.toNat_sub_of_le hge]
  exact Nat.sub_add_cancel hge

end

/-- Settles O40: each range of hex characters meets one branch of `hexVal`; the encoder's characters are 16 cases. -/
theorem hexCharactersAndValues : Obligations.HexCharactersAndValues :=
  ⟨isHex_iff, fun _ => ⟨hexVal_digit_toNat, hexVal_upper_toNat, hexVal_lower_toNat⟩, by decide⟩

/-! ### Byte strings -/

theorem highNibble_eq_ofNat (b : Byte) : b.extractLsb' 4 4 = BitVec.ofNat 4 (b.toNat / 16) := by
  rw [BitVec.extractLsb', Nat.shiftRight_eq_div_pow]

theorem lowNibble_eq_ofNat (b : Byte) : b.extractLsb' 0 4 = BitVec.ofNat 4 (b.toNat % 16) := by
  apply BitVec.eq_of_toNat_eq
  simp

theorem hexBytes_cons_cons (c₁ c₂ : Byte) (rest : List Byte) :
    hexBytes (c₁ :: c₂ :: rest) =
      BitVec.ofNat 8 ((hexVal c₁).toNat * 16 + (hexVal c₂).toNat) :: hexBytes rest := by
  simp [hexBytes, BitVec.ofNat_add, BitVec.ofNat_mul]

@[simp] theorem hexBytes_hexString (bs : List Byte) : hexBytes (hexString bs) = bs := by
  induction bs with
  | nil => rfl
  | cons b bs ih => rw [hexString_cons, hexBytes, hexVal_hex2, ih]

theorem all_isHex_hexString (bs : List Byte) : (hexString bs).all isHex = true := by
  induction bs with
  | nil => rfl
  | cons b bs ih => simp [hexString_cons, isHex_hexChar, ih]

/-- The two characters of byte `j`, high nibble first. -/
theorem getElem?_hexString {bs : List Byte} {j : Nat} {b : Byte} (h : bs[j]? = some b) :
    (hexString bs)[2 * j]? = some (hexChar (BitVec.ofNat 4 (b.toNat / 16))) ∧
    (hexString bs)[2 * j + 1]? = some (hexChar (BitVec.ofNat 4 (b.toNat % 16))) := by
  induction bs generalizing j with
  | nil => simp at h
  | cons x xs ih =>
    rw [hexString_cons]
    cases j with
    | zero =>
      obtain rfl : x = b := by simpa using h
      exact ⟨by rw [← highNibble_eq_ofNat]; rfl, by rw [← lowNibble_eq_ofNat]; rfl⟩
    | succ j => exact ih h

/-- Settles O41, by induction on the byte string. -/
theorem hexStringDecodesBack : Obligations.HexStringDecodesBack :=
  ⟨fun c₁ c₂ rest _ _ => hexBytes_cons_cons c₁ c₂ rest, fun bs =>
    ⟨hexBytes_hexString bs, all_isHex_hexString bs, length_hexString bs, fun _ _ => getElem?_hexString⟩⟩

end Sys2Proof.Machine
end

section
/-!
PROOFS. The ASCII codec (42_ascii_codec.md R173 to R186): what ASCII_ENCODE leaves, what ASCII_DECODE leaves of a frame
written as its parts, and one after the other.
-/

namespace Sys2Proof.Machine

/-! ### ASCII_ENCODE -/

/-- What ASCII_ENCODE leaves when its length checks pass (R181). -/
def asciiEncoded (s : State) : State :=
  { s with
    fbuf := s.fbuf.setAll 0 (asciiFrame s.slave s.func (s.pbufBytes s.plen.toNat))
    flen := BitVec.ofNat 16 (2 * s.plen.toNat + 9)
    lsum := lsum (s.slave :: s.func :: s.pbufBytes s.plen.toNat)
    status := okStatus
    draws := s.draws + s.plen.toNat }

theorem exec_asciiEncode_of_lt {s : State}
    (h : s.cfg.pbufSize < s.plen.toNat ∨ s.cfg.fbufSize < 2 * s.plen.toNat + 9) :
    exec .asciiEncode s = .next (s.setStatus (errorStatus .overflow)) :=
  ((execAsciiEncode_cases s).resolve_right fun ⟨hp, hf, _⟩ => by omega).2

theorem exec_asciiEncode_of_le {s : State} (hn : s.plen.toNat ≤ s.cfg.pbufSize)
    (hfits : 2 * s.plen.toNat + 9 ≤ s.cfg.fbufSize) : exec .asciiEncode s = .next (asciiEncoded s) := by
  obtain ⟨_, _, h⟩ := (execAsciiEncode_cases s).resolve_left fun hover => by omega
  refine h.trans (congrArg Host.Outcome.next ?_)
  simp only [State.setFrame, length_asciiFrame, length_pbufBytes]
  rfl

/-- The encoded frame is what a command then reads, whatever the draws. -/
theorem asciiEncoded_fbufBytes (s : State) :
    (asciiEncoded s).fbufBytes (2 * s.plen.toNat + 9) = asciiFrame s.slave s.func (s.pbufBytes s.plen.toNat) := by
  have h := Memory.readAll_setAll s.fbuf (asciiEncoded s).draws
    (asciiFrame s.slave s.func (s.pbufBytes s.plen.toNat))
  rwa [length_asciiFrame, length_pbufBytes] at h

theorem asciiEncoded_get?_of_lt {s : State} {j : Nat} (hj : j < 2 * s.plen.toNat + 9) :
    (asciiEncoded s).fbuf.get? j = (asciiFrame s.slave s.func (s.pbufBytes s.plen.toNat))[j]? := by
  have h : j < (asciiFrame s.slave s.func (s.pbufBytes s.plen.toNat)).length := by simpa using hj
  exact (Memory.get?_setAll_of_lt s.fbuf h).trans (List.getElem?_eq_getElem h).symm

theorem asciiEncoded_get?_of_ge {s : State} {j : Nat} (hj : 2 * s.plen.toNat + 9 ≤ j) :
    (asciiEncoded s).fbuf.get? j = s.fbuf.get? j :=
  Memory.get?_setAll_of_ge s.fbuf (by simpa using hj)

/-- A character between the markers. -/
theorem getElem?_asciiFrame_succ (a f : Byte) (p : List Byte) {i : Nat} (hi : i < 2 * (p.length + 3)) :
    (asciiFrame a f p)[i + 1]? = (hexString (a :: f :: (p ++ [lrc (a :: f :: p)])))[i]? := by
  rw [asciiFrame_eq, List.getElem?_cons_succ, List.getElem?_append_left (by simpa using hi)]

/-- The two marker characters at the end. -/
theorem getElem?_asciiFrame_crlf (a f : Byte) (p : List Byte) (i : Nat) :
    (asciiFrame a f p)[2 * p.length + 7 + i]? = ([0x0D, 0x0A] : List Byte)[i]? := by
  rw [asciiFrame_eq, show 2 * p.length + 7 + i = 2 * (p.length + 3) + i + 1 by omega, List.getElem?_cons_succ,
    List.getElem?_append_right (by simp)]
  congr 1
  simp

/-- Settles O42: the length checks' two outcomes, and the frame character by character. -/
theorem asciiEncodeBuildsFrame : Obligations.AsciiEncodeBuildsFrame := by
  refine ⟨decode_encode .asciiEncode, fun s => ⟨exec_asciiEncode_of_lt, ?_⟩⟩
  intro n body bytes _ hn hfits
  have hp : (s.pbufBytes n).length = n := length_pbufBytes s n
  have hcrlf (i : Nat) (hi : i < 2) : (asciiEncoded s).fbuf.get? (2 * n + 7 + i) = ([0x0D, 0x0A] : List Byte)[i]? := by
    rw [asciiEncoded_get?_of_lt (by omega), ← getElem?_asciiFrame_crlf s.slave s.func (s.pbufBytes n), hp]
  refine ⟨(asciiEncoded s).fbuf, _, exec_asciiEncode_of_le hn hfits, asciiEncoded_get?_of_lt (by omega),
    fun j b hb => ?_, hcrlf 0 (by omega), hcrlf 1 (by omega), fun j => asciiEncoded_get?_of_ge⟩
  have hlen : bytes.length = n + 3 := by simp [bytes, body, hp]
  have hj : j < n + 3 := hlen ▸ (List.getElem?_eq_some_iff.mp hb).1
  have hchar (i : Nat) (hi : i < 2 * (n + 3)) : (asciiEncoded s).fbuf.get? (i + 1) = (hexString bytes)[i]? := by
    rw [asciiEncoded_get?_of_lt (by omega), getElem?_asciiFrame_succ _ _ _ (by rwa [hp])]
    rfl
  obtain ⟨hhigh, hlow⟩ := getElem?_hexString hb
  exact ⟨by rw [Nat.add_comm, hchar _ (by omega), hhigh], by rw [Nat.add_comm, hchar _ (by omega), hlow]⟩

/-! ### ASCII_DECODE -/

/-- Settles O43: the two length checks in their order, and the marker test as the form of the frame. -/
theorem asciiDecodeLengthAndFramingErrors : Obligations.AsciiDecodeLengthAndFramingErrors := by
  intro s
  refine ⟨fun hover => if_pos hover, fun hle hshort => (if_neg hle.not_gt).trans (if_pos hshort),
    fun hle hlong hmarks => ?_⟩
  have hlen : (s.fbufBytes s.flen.toNat).length = s.flen.toNat := Memory.length_readAll ..
  have hunmarked := mt (ascii_markers_iff (hlong.trans_eq hlen.symm)).mp (hmarks _)
  exact (if_neg hle.not_gt).trans ((if_neg hlong.not_gt).trans (if_pos (by tauto)))

/-- ASCII_DECODE after its checksum stage (R185): computed sum and received LRC kept, the frame's draws used. -/
def asciiKept (s : State) (v l : Byte) : State :=
  { s with lsum := v, rxchk := BitVec.ofNat 16 l.toNat, draws := s.draws + s.flen.toNat }

section
variable {s : State} {mid : List Byte} (hn : s.flen.toNat = mid.length + 3) (hle : s.flen.toNat ≤ s.cfg.fbufSize)
  (hbytes : s.fbufBytes s.flen.toNat = 0x3A :: (mid ++ [0x0D, 0x0A]))
include hn hle hbytes

/-- Both character tests raise the same error (R185). -/
theorem exec_asciiDecode_of_not_hex (h : (∃ ch ∈ mid, isHex ch = false) ∨ mid.length % 2 = 1) :
    exec .asciiDecode s = raise .hexDecodeError (s.useDraws s.flen.toNat) := by
  refine (execAsciiDecode_marked hn hle hbytes).trans ?_
  rcases h with ⟨ch, hmem, hch⟩ | hodd
  · exact if_pos (List.all_eq_false.mpr ⟨ch, hmem, by simp [hch]⟩)
  · rw [if_pos hodd, ite_self]

variable (hhex : ∀ ch ∈ mid, isHex ch = true) (heven : mid.length % 2 = 0)
include hhex heven

/-- ASCII_DECODE past its character tests. -/
theorem exec_asciiDecode_of_hex :
    exec .asciiDecode s = asciiCheckBytes (hexBytes mid) (s.useDraws s.flen.toNat) := by
  refine (execAsciiDecode_marked hn hle hbytes).trans ?_
  rw [List.all_eq_true.mpr hhex, if_neg nofun, if_neg (by omega)]

variable {a f l : Byte} {p : List Byte} (hparts : hexBytes mid = a :: f :: (p ++ [l]))
include hparts

/-- ASCII_DECODE past its character tests, on the parts of the decoded bytes. -/
theorem exec_asciiDecode_parts : exec .asciiDecode s =
    if lrc (a :: f :: p) ≠ l then raise .checksumMismatch (asciiKept s (lsum (a :: f :: p)) l)
    else deliver a f p (asciiKept s (lsum (a :: f :: p)) l) := by
  rw [exec_asciiDecode_of_hex hn hle hbytes hhex heven, hparts, asciiCheckBytes_parts, zext16_eq_ofNat]
  rfl

theorem exec_asciiDecode_of_lrc_ne (hlrc : lrc (a :: f :: p) ≠ l) : exec .asciiDecode s =
    .next ((asciiKept s (lsum (a :: f :: p)) l).setStatus (errorStatus .checksumMismatch)) :=
  (exec_asciiDecode_parts hn hle hbytes hhex heven hparts).trans (if_pos hlrc)

theorem exec_asciiDecode_of_lrc_eq (hlrc : lrc (a :: f :: p) = l) :
    exec .asciiDecode s = deliver a f p (asciiKept s (lsum (a :: f :: p)) l) :=
  (exec_asciiDecode_parts hn hle hbytes hhex heven hparts).trans (if_neg (not_not_intro hlrc))

end

/-- Settles O44: the character tests, then the number of decoded bytes, half that of the characters. -/
theorem asciiDecodeHexErrorsAndTruncation : Obligations.AsciiDecodeHexErrorsAndTruncation := by
  intro s mid hn hle hbytes
  refine ⟨exec_asciiDecode_of_not_hex hn hle hbytes, fun hhex heven hshort => ?_⟩
  rw [exec_asciiDecode_of_hex hn hle hbytes hhex heven]
  exact if_pos (by rw [length_hexBytes]; omega)

/-- Settles O45: the checksum stage of a wrong LRC. -/
theorem asciiDecodeChecksumMismatch : Obligations.AsciiDecodeChecksumMismatch :=
  fun _ _ _ _ _ _ hn hle hbytes hhex heven => exec_asciiDecode_of_lrc_ne hn hle hbytes hhex heven

/-- Settles O46: past the checksum stage, by whether there is a payload byte. -/
theorem asciiDecodeExceptionResponse : Obligations.AsciiDecodeExceptionResponse := by
  intro s mid a f l p hn hle hbytes hhex heven hparts hlrc hf
  have h7 := (getLsbD_seven_iff f).mpr hf
  rw [exec_asciiDecode_of_lrc_eq hn hle hbytes hhex heven hparts hlrc]
  refine ⟨?_, ?_⟩
  · rintro rfl
    exact deliver_exception_nil h7 ..
  · rintro code more rfl
    exact deliver_exception_cons h7 ..

/-- Settles O47: past the checksum stage, by the length check on the payload. -/
theorem asciiDecodePayloadOverflow : Obligations.AsciiDecodePayloadOverflow := by
  intro s mid a f l p hn hle hbytes hhex heven hparts hlrc hf hp
  rw [exec_asciiDecode_of_lrc_eq hn hle hbytes hhex heven hparts hlrc]
  exact deliver_overflow (mt (getLsbD_seven_iff f).mp hf.not_ge) a hp

/-- Settles O48: past the checksum stage, the payload fits and is delivered. -/
theorem asciiDecodeUnpacksFrame : Obligations.AsciiDecodeUnpacksFrame := by
  intro s mid a f l p hn hle hbytes hhex heven hparts hlrc hf hp
  refine ⟨s.pbuf.setAll 0 p, ?_, Memory.holds_setAll s.pbuf p, fun j => Memory.get?_setAll_of_ge s.pbuf⟩
  rw [exec_asciiDecode_of_lrc_eq hn hle hbytes hhex heven hparts hlrc]
  exact deliver_success (mt (getLsbD_seven_iff f).mp hf.not_ge) a hp

/-! ### Encoding, then decoding -/

/-- ASCII_DECODE finds the frame of R173 that ASCII_ENCODE has left, whose LRC is right, and delivers its parts. -/
theorem exec_asciiDecode_asciiEncoded {s : State} (hl : s.cfg.legal = true)
    (hfits : 2 * s.plen.toNat + 9 ≤ s.cfg.fbufSize) :
    exec .asciiDecode (asciiEncoded s) = deliver s.slave s.func (s.pbufBytes s.plen.toNat)
      (asciiKept (asciiEncoded s) (asciiEncoded s).lsum (lrc (s.slave :: s.func :: s.pbufBytes s.plen.toNat))) := by
  have hflen : (asciiEncoded s).flen.toNat = 2 * s.plen.toNat + 9 := by
    rw [Params.legal_iff] at hl
    exact Nat.mod_eq_of_lt (by omega)
  refine exec_asciiDecode_of_lrc_eq ?_ (hflen.trans_le hfits) ?_ (List.all_eq_true.mp (all_isHex_hexString _)) ?_
    (hexBytes_hexString _) rfl
  · simp only [hflen, length_hexString, List.length_cons, List.length_append, length_pbufBytes, List.length_nil]
    omega
  · rw [hflen, asciiEncoded_fbufBytes, asciiFrame_eq]
  · rw [length_hexString]
    omega

/-- Settles O49, by bit 7 of FUNC and whether there is a payload byte; the payload came from PBUF, so it fits. -/
theorem asciiRoundTrip : Obligations.AsciiRoundTrip := by
  intro s hl hn hfits n p
  have hp : p.length = n := length_pbufBytes s n
  have henc := exec_asciiEncode_of_le hn hfits
  have hdec : exec .asciiDecode (asciiEncoded s) = deliver s.slave s.func p _ := exec_asciiDecode_asciiEncoded hl hfits
  refine ⟨asciiEncoded s, ?_⟩
  cases h7 : s.func.getLsbD 7 with
  | false =>
    have hplen : BitVec.ofNat 16 p.length = s.plen := by rw [hp, BitVec.ofNat_toNat, BitVec.setWidth_eq]
    refine ⟨_, henc, hdec.trans (deliver_success (ne_true_of_eq_false h7) _ (hp.trans_le hn)), rfl, hplen, rfl, rfl,
      rfl, fun _ => ?_, nofun⟩
    exact ⟨rfl, Memory.holds_setAll s.pbuf p, fun i b => Memory.get?_setAll_readAll s.draws n⟩
  | true =>
    cases hcode : p with
    | nil =>
      rw [hcode, deliver_exception_nil h7] at hdec
      exact ⟨_, henc, hdec, rfl, rfl, rfl, rfl, hcode ▸ rfl, nofun, fun _ => ⟨rfl, fun _ => rfl, nofun⟩⟩
    | cons code rest =>
      rw [hcode, deliver_exception_cons h7] at hdec
      have hn0 : n ≠ 0 := by simp [← hp, hcode]
      refine ⟨_, henc, hdec, rfl, rfl, rfl, rfl, hcode ▸ rfl, nofun, fun _ => ⟨rfl, fun h => absurd h hn0, ?_⟩⟩
      rintro _ ⟨⟩
      rfl

end Sys2Proof.Machine
end

section
/-!
PROOFS. The errors an ASCII frame's LRC detects (42_ascii_codec.md R187): one hex character changed in value.
-/

namespace Sys2Proof.Machine

/-- The weight of character `k` in the byte it is part of (R172). -/
def hexWeight (k : Nat) : Byte := if k % 2 = 0 then 16 else 1

@[simp] theorem hexWeight_zero : hexWeight 0 = 16 := rfl

@[simp] theorem hexWeight_one : hexWeight 1 = 1 := rfl

@[simp] theorem hexWeight_add_two (k : Nat) : hexWeight (k + 2) = hexWeight k := by simp [hexWeight]

theorem hexWeight_cases (k : Nat) : hexWeight k = 16 ∨ hexWeight k = 1 := ite_eq_or_eq ..

/-- Different values of hex characters stay different at either weight. -/
theorem eq_of_hexWeight_mul_eq {u v : Byte} (k : Nat) (hu : u.toNat < 16) (hv : v.toNat < 16)
    (h : hexWeight k * u = hexWeight k * v) : u = v := by
  rcases hexWeight_cases k with hw | hw
  · have h16 : 16 * u.toNat % 256 = 16 * v.toNat % 256 := by simpa [hw] using congrArg BitVec.toNat h
    exact BitVec.eq_of_toNat_eq (by omega)
  · rwa [hw, one_mul, one_mul] at h

/-- Replacing one character moves the sum of the decoded bytes by the change of its value, at its weight. -/
theorem lsum_hexBytes_set {old : Byte} (new : Byte) : ∀ {mid : List Byte} {k : Nat}, mid.length % 2 = 0 →
    mid[k]? = some old →
    lsum (hexBytes (mid.set k new)) + hexWeight k * hexVal old = lsum (hexBytes mid) + hexWeight k * hexVal new
  | c₁ :: c₂ :: rest, 0, _, hk => by
    obtain rfl : c₁ = old := by simpa using hk
    simp only [List.set, hexBytes, lsum_cons, hexWeight_zero]
    ring
  | c₁ :: c₂ :: rest, 1, _, hk => by
    obtain rfl : c₂ = old := by simpa using hk
    simp only [List.set, hexBytes, lsum_cons, hexWeight_one]
    ring
  | _ :: _ :: rest, k + 2, heven, hk => by
    have heven' : rest.length % 2 = 0 := (Nat.add_mod_right rest.length 2).symm.trans heven
    simp only [List.set, hexBytes, lsum_cons, hexWeight_add_two, add_assoc]
    rw [lsum_hexBytes_set new heven' hk]

/-- A character of the same value, in either letter case, decodes to the same bytes. -/
theorem hexBytes_set_of_hexVal_eq {old new : Byte} (hv : hexVal new = hexVal old) : ∀ {mid : List Byte} {k : Nat},
    mid[k]? = some old → hexBytes (mid.set k new) = hexBytes mid
  | c₁ :: c₂ :: rest, 0, hk => by
    obtain rfl : c₁ = old := by simpa using hk
    simp only [List.set, hexBytes, hv]
  | c₁ :: c₂ :: rest, 1, hk => by
    obtain rfl : c₂ = old := by simpa using hk
    simp only [List.set, hexBytes, hv]
  | _ :: _ :: _, _ + 2, hk => congrArg (List.cons _) (hexBytes_set_of_hexVal_eq hv hk)
  | [_], 0, _ => rfl

/-- Settles O50: a changed value leaves bytes that no longer sum to 0, which is the LRC test. -/
theorem asciiSingleCharacterChangeIsDetected : Obligations.AsciiSingleCharacterChangeIsDetected := by
  intro s mid k old new hn hle hhex heven hlong hsum hk hnew hbytes
  refine ⟨fun hne => ?_, fun heq => hexBytes_set_of_hexVal_eq heq hk⟩
  have hold : isHex old = true := hhex old (List.mem_of_getElem? hk)
  have hsum' : lsum (hexBytes (mid.set k new)) ≠ 0 := by
    intro hzero
    have hmove := lsum_hexBytes_set new heven hk
    rw [hzero, hsum, zero_add, zero_add] at hmove
    exact hne (eq_of_hexWeight_mul_eq k (hexVal_lt old hold) (hexVal_lt new hnew) hmove).symm
  obtain ⟨a, f, p, l, hparts⟩ := exists_ascii_parts (d := hexBytes (mid.set k new)) (by
    rw [length_hexBytes, List.length_set]; omega)
  have hhex' : ∀ ch ∈ mid.set k new, isHex ch = true := fun ch hch =>
    (List.mem_or_eq_of_mem_set hch).elim (hhex ch) fun h => h ▸ hnew
  have hlrc : lrc (a :: f :: p) ≠ l := by
    rw [Ne, lrc_eq_iff]
    rwa [hparts] at hsum'
  rw [← List.length_set (i := k) (a := new)] at hn heven
  exact ⟨_, exec_asciiDecode_of_lrc_ne hn hle hbytes hhex' heven hparts hlrc, rfl, rfl, rfl, rfl, rfl⟩

end Sys2Proof.Machine
end

section
/-!
PROOFS. SOFT_RESET and illegal command words (43_control.md R210, R211).
-/

namespace Sys2Proof.Machine

/-! ### Illegal command words -/

/-- A word that R72 calls illegal decodes to no command, on whichever ground, so it raises ILLEGAL_COMMAND (R211). -/
theorem runCommandWord_of_illegal {w : HostWord} (h : commandWordLegal w = false) (s : State) :
    runCommandWord w s = .next (s.setStatus (errorStatus .illegalCommand)) := by
  obtain ⟨e, he⟩ := (exists_decode_eq_error_iff w).mpr h
  rw [runCommandWord, he]
  exact raise_eq .illegalCommand s

/-- Settles O5: the access is the one that starts a command, and recording the error in STATUS is all it does. -/
theorem illegalWordChangesOnlyStatus : Obligations.IllegalWordChangesOnlyStatus := by
  intro s w rest hp hw
  rw [step_commandAccess (w := w) hp, runCommandWord_of_illegal hw]
  rfl

/-! ### SOFT_RESET -/

/-- SOFT_RESET is the register reset of R261, which power-on reset applies too; clearing STATUS at the command's end
adds nothing to it. -/
theorem exec_softReset (s : State) : exec .softReset s = .next s.resetRegisters := rfl

/-- Settles O51: the word is the command's encoding, and the command is the register reset. -/
theorem softResetRestoresRegisters : Obligations.SoftResetRestoresRegisters :=
  ⟨decode_encode .softReset, exec_softReset⟩

end Sys2Proof.Machine
end

section
/-!
PROOFS. The rules about every command's end (60_exceptions.md R220 to R224, R228): the outcome recorded in STATUS, what
an error leaves, and no dependence on an earlier STATUS.
-/

namespace Sys2Proof.Machine

/-- `t` has the lengths and both buffers of `s` (R222, R223). -/
structure SameLengthsAndBuffers (s t : State) : Prop where
  flen : t.flen = s.flen
  plen : t.plen = s.plen
  pbuf : t.pbuf = s.pbuf
  fbuf : t.fbuf = s.fbuf

/-- How a command started in `s` ends (R220, R224): with the error of a command recorded in STATUS, after writes to
neither a length nor a buffer, or with success. ILLEGAL_COMMAND belongs to words that are no command (R211). -/
inductive CommandEnd (s : State) : Host.Outcome State Fault Refusal → Prop where
  | error (kept : State) (k : FrameError) (hk : k ≠ .illegalCommand) (hkept : SameLengthsAndBuffers s kept) :
      CommandEnd s (.next (kept.setStatus (errorStatus k)))
  | success (t : State) : CommandEnd s (.next (t.setStatus okStatus))

/-- What `exec_commandEnd` needs of a command that can only raise the OVERFLOW of its length checks, with nothing else
written, or succeed. -/
theorem commandEnd_of_overflow_or_success {s t : State} {o : Host.Outcome State Fault Refusal} {p q : Prop}
    (h : p ∧ o = .next (s.setStatus (errorStatus .overflow)) ∨ q ∧ o = .next (t.setStatus okStatus)) :
    CommandEnd s o := by
  rcases h with ⟨_, rfl⟩ | ⟨_, rfl⟩
  · exact .error s _ nofun ⟨rfl, rfl, rfl, rfl⟩
  · exact .success t

/-- The decoders' common end adds SLAVE and FUNC at most to what an error leaves. -/
theorem DecoderEnd.commandEnd {s kept : State} {o : Host.Outcome State Fault Refusal} (h : DecoderEnd kept o)
    (hkept : SameLengthsAndBuffers s kept) : CommandEnd s o := by
  cases h with
  | error k hk => exact .error kept k (by rintro rfl; simp at hk) hkept
  | exceptionResponse a f code _ =>
    exact .error (kept.setAddress a f) _ nofun ⟨hkept.flen, hkept.plen, hkept.pbuf, hkept.fbuf⟩
  | success a f p _ _ => exact .success _

theorem exec_commandEnd (i : Instr) (s : State) : CommandEnd s (exec i s) := by
  cases i with
  | crcInit | crcByte b | lrcInit | lrcByte b | softReset => exact .success _
  | crcFbuf => exact commandEnd_of_overflow_or_success (execCrcFbuf_cases s)
  | lrcFbuf => exact commandEnd_of_overflow_or_success (execLrcFbuf_cases s)
  | rtuEncode => exact commandEnd_of_overflow_or_success ((execRtuEncode_cases s).imp_right And.right)
  | asciiEncode => exact commandEnd_of_overflow_or_success ((execAsciiEncode_cases s).imp_right And.right)
  | rtuDecode =>
    rcases execRtuDecode_cases s with ⟨k, hk, h⟩ | ⟨c, rx, h⟩
    · rw [exec, h]
      exact .error s k (by rintro rfl; simp at hk) ⟨rfl, rfl, rfl, rfl⟩
    · exact h.commandEnd ⟨rfl, rfl, rfl, rfl⟩
  | asciiDecode =>
    rcases execAsciiDecode_cases s with ⟨n, _, k, hk, h⟩ | ⟨v, rx, h⟩
    · rw [exec, h]
      exact .error (s.useDraws n) k (by rintro rfl; simp at hk) ⟨rfl, rfl, rfl, rfl⟩
    · exact h.commandEnd ⟨rfl, rfl, rfl, rfl⟩

/-- Settles O52: STATUS holds the code of the error the command ended with, or 0. -/
theorem everyCommandEndsInARecordedOutcome : Obligations.EveryCommandEndsInARecordedOutcome := by
  intro i s
  have hend := exec_commandEnd i s
  generalize exec i s = o at hend
  cases hend with
  | error kept k hk _ =>
    refine ⟨_, rfl, ?_⟩
    cases k with
    | illegalCommand => exact absurd rfl hk
    | _ => simp [errorStatus, errCode, errExcode]
  | success t => exact ⟨_, rfl, .inl rfl, fun _ => rfl⟩

/-- Settles O54: at its end an error writes STATUS only, and nothing written before it is a length or a buffer. -/
theorem errorsKeepLengthsAndBuffers : Obligations.ErrorsKeepLengthsAndBuffers := by
  intro i s t h herr
  have hend : CommandEnd s (.next t) := h ▸ exec_commandEnd i s
  cases hend with
  | error kept k _ hkept => exact ⟨hkept.flen, hkept.plen, hkept.pbuf, hkept.fbuf⟩
  | success t' => exact absurd rfl herr

/-- Settles O53: no command reads STATUS, and each ends by overwriting it. -/
theorem commandsIgnoreEarlierStatus : Obligations.CommandsIgnoreEarlierStatus := by
  intro i s st
  cases i <;> rfl

end Sys2Proof.Machine
end

section
/-!
PROOFS. Power-on reset (70_reset_and_hazards.md R260 to R262): the registers as the host reads them, and the invariant.
-/

namespace Sys2Proof.Machine

theorem statusWord_okStatus : statusWord okStatus = 0 := by decide

theorem negate8_zero : negate8 0 = 0 := by decide

/-- Every register with a reset value reads it after the register reset (R261): 0, but for CRC. -/
theorem readReg_resetRegisters (s : State) {r : Reg} (hr : r ≠ .caps) :
    s.resetRegisters.readReg r = if r = .crc then 0x0000FFFF else 0 := by
  cases r with
  | caps => exact absurd rfl hr
  | status => exact statusWord_okStatus
  | lrc => exact congrArg (BitVec.zeroExtend 32) negate8_zero
  | _ => rfl

/-- Power-on gives each register the value the register reset of R261 gives it. -/
theorem resetRegisters_resetWith (p : Params) : (State.resetWith p).resetRegisters = State.resetWith p := rfl

/-- Settles O15: a power-on state is one the register reset leaves, and its buffers list nothing. -/
theorem resetGivesTheResetValues : Obligations.ResetGivesTheResetValues := by
  refine ⟨fun p => ?_, rfl, by decide⟩
  have hread {r : Reg} (hr : r ≠ .caps) : (State.resetWith p).readReg r = if r = .crc then 0x0000FFFF else 0 :=
    resetRegisters_resetWith p ▸ readReg_resetRegisters _ hr
  exact ⟨⟨hread nofun, hread nofun, hread nofun, hread nofun, hread nofun, hread nofun, hread nofun, hread nofun,
    hread nofun, hread nofun⟩, fun i => ⟨Memory.get?_nil i, Memory.get?_nil i⟩, rfl⟩

/-- An empty buffer is in canonical form with nothing above its size, and STATUS is that of a success. -/
theorem stateInv_resetWith {p : Params} (hp : p.legal = true) : StateInv (State.resetWith p) :=
  ⟨hp, rfl, rfl, rfl, rfl, statusLegal_okStatus⟩

/-- Settles O16: the default sizes of R7 are legal. -/
theorem resetSatisfiesInvariant : Obligations.ResetSatisfiesInvariant :=
  ⟨stateInv_resetWith (by decide), fun _ => stateInv_resetWith⟩

end Sys2Proof.Machine
end

section
/-!
PROOFS. What each command may write (70_reset_and_hazards.md R266; 10_state.md R24, R25, R27 to R33), as one table.
-/

namespace Sys2Proof.Machine

/-- `t` is `s` after writes to nothing but STATUS, the draw counter and what the command's row of this table names; for
SOFT_RESET the writes are those of R261. -/
def WrittenBy (s t : State) : Instr → Prop
  | .crcInit | .crcByte _ | .crcFbuf => ∃ st d crc, t = { s with status := st, draws := d, crc := crc }
  | .lrcInit | .lrcByte _ | .lrcFbuf => ∃ st d lsum, t = { s with status := st, draws := d, lsum := lsum }
  | .rtuEncode => ∃ st d fbuf flen crc,
      t = { s with status := st, draws := d, fbuf := fbuf, flen := flen, crc := crc }
  | .asciiEncode => ∃ st d fbuf flen lsum,
      t = { s with status := st, draws := d, fbuf := fbuf, flen := flen, lsum := lsum }
  | .rtuDecode => ∃ st d slave func pbuf plen rxchk crc, t = { s with
      status := st, draws := d, slave := slave, func := func, pbuf := pbuf, plen := plen, rxchk := rxchk, crc := crc }
  | .asciiDecode => ∃ st d slave func pbuf plen rxchk lsum, t = { s with
      status := st, draws := d, slave := slave, func := func, pbuf := pbuf, plen := plen, rxchk := rxchk, lsum := lsum }
  | .softReset => t = s.resetRegisters

/-- The decoders' common end writes STATUS and decoded outputs only. -/
theorem DecoderEnd.exists_eq_with {kept : State} {o : Host.Outcome State Fault Refusal} (h : DecoderEnd kept o) :
    ∃ st slave func pbuf plen, o = .next { kept with
      status := st, slave := slave, func := func, pbuf := pbuf, plen := plen } := by
  cases h <;> exact ⟨_, _, _, _, _, rfl⟩

theorem exec_writtenBy (i : Instr) (s : State) : ∃ t, exec i s = .next t ∧ WrittenBy s t i := by
  cases i with
  | crcInit | crcByte b | lrcInit | lrcByte b => exact ⟨_, rfl, _, _, _, rfl⟩
  | softReset => exact ⟨_, exec_softReset s, rfl⟩
  | crcFbuf => rcases execCrcFbuf_cases s with ⟨_, h⟩ | ⟨_, h⟩ <;> exact ⟨_, h, _, _, _, rfl⟩
  | lrcFbuf => rcases execLrcFbuf_cases s with ⟨_, h⟩ | ⟨_, h⟩ <;> exact ⟨_, h, _, _, _, rfl⟩
  | rtuEncode => rcases execRtuEncode_cases s with ⟨_, h⟩ | ⟨_, _, h⟩ <;> exact ⟨_, h, _, _, _, _, _, rfl⟩
  | asciiEncode => rcases execAsciiEncode_cases s with ⟨_, h⟩ | ⟨_, _, h⟩ <;> exact ⟨_, h, _, _, _, _, _, rfl⟩
  | rtuDecode =>
    rcases execRtuDecode_cases s with ⟨k, _, h⟩ | ⟨c, rx, h⟩
    · exact ⟨_, h, _, _, _, _, _, _, _, _, rfl⟩
    · obtain ⟨st, a, f, m, n, ho⟩ := h.exists_eq_with
      exact ⟨_, ho, _, _, _, _, _, _, _, _, rfl⟩
  | asciiDecode =>
    rcases execAsciiDecode_cases s with ⟨n, _, k, _, h⟩ | ⟨v, rx, h⟩
    · exact ⟨_, h, _, _, _, _, _, _, _, _, rfl⟩
    · obtain ⟨st, a, f, m, n, ho⟩ := h.exists_eq_with
      exact ⟨_, ho, _, _, _, _, _, _, _, _, rfl⟩

/-- Settles O55: what no row of the table names is unchanged, command by command. -/
theorem commandsWriteOnlyTheirOwnState : Obligations.CommandsWriteOnlyTheirOwnState := by
  intro i s t h
  obtain ⟨t', ht', hw⟩ := exec_writtenBy i s
  obtain rfl := Host.Outcome.next.inj (ht'.symm.trans h)
  cases i with
  | crcInit | crcByte b | crcFbuf | lrcInit | lrcByte b | lrcFbuf => obtain ⟨_, _, _, rfl⟩ := hw; simp
  | rtuEncode | asciiEncode => obtain ⟨_, _, _, _, _, rfl⟩ := hw; simp
  | rtuDecode | asciiDecode => obtain ⟨_, _, _, _, _, _, _, _, rfl⟩ := hw; simp
  | softReset => obtain rfl := hw; simp

end Sys2Proof.Machine
end

section
/-!
PROOFS. Runs of the host's accesses (70_reset_and_hazards.md R269; 20_memory.md R58): each step uses up one access, and
a read adds one observation.
-/

namespace Sys2Proof.Machine

/-! ### One access -/

/-- The number of values a request returns to the host: one for a read, none for a write (R51, R52). -/
def Request.readCount : Request → Nat
  | .readReg _ | .readByte _ _ => 1
  | .writeReg _ _ | .writeByte _ _ _ => 0

/-- The port turns reads into reads and writes into writes. -/
theorem readCount_singleton_of_request {p : Params} {a : HostAccess} {q : Request} (h : request p a = .ok q) :
    readCount [a] = q.readCount := by
  cases a with
  | read32 addr | write32 addr v | read8 addr | write8 addr v | otherWidth bits addr =>
    simp only [request, bind, Except.bind, pure, Except.pure] at h
    repeat' split at h
    all_goals cases h <;> rfl

theorem readCount_cons (a : HostAccess) (rest : List HostAccess) :
    readCount (a :: rest) = readCount [a] + readCount rest :=
  List.countP_append (l₁ := [a])

theorem length_observations_perform (s : State) (q : Request) :
    (perform s q).observations.length = s.observations.length + q.readCount := by
  cases q with
  | readReg r => simp [perform, Request.readCount]
  | readByte b i => simp [perform, Request.readCount]
  | writeReg r v => cases r <;> rfl
  | writeByte b i v => cases b <;> rfl

@[simp] theorem perform_hostProgram (s : State) (q : Request) : (perform s q).hostProgram = s.hostProgram := by
  cases q with
  | readReg r | readByte b i => rfl
  | writeReg r v => cases r <;> rfl
  | writeByte b i v => cases b <;> rfl

/-- A command word, legal or not, ends in a next state and makes no access of the host and no observation. -/
theorem runCommandWord_keepsHost (w : HostWord) (s : State) : ∃ t, runCommandWord w s = .next t ∧
    t.hostProgram = s.hostProgram ∧ t.observations = s.observations := by
  unfold runCommandWord
  split
  next i _ =>
    obtain ⟨t, ht, _⟩ := exec_writtenBy i s
    obtain ⟨⟨_, hprog, hobs⟩, _⟩ := commandsWriteOnlyTheirOwnState i s t ht
    exact ⟨t, ht, hprog, hobs⟩
  next => exact ⟨_, rfl, rfl, rfl⟩

/-- A step with a well-formed access uses that access up, and returns a value to the host when it is a read. -/
theorem step_of_wellFormed {s : State} {a : HostAccess} {rest : List HostAccess} (hl : s.cfg.legal = true)
    (hp : s.hostProgram = a :: rest) (ha : a.wellFormed s.cfg = true) : ∃ t, step s = .next t ∧
      t.hostProgram = rest ∧ t.observations.length = s.observations.length + readCount [a] := by
  rcases step_cases s with ⟨hnil, _⟩ | ⟨a', rest', hp', hcase⟩
  · simp [hp] at hnil
  obtain ⟨rfl, rfl⟩ := List.cons.inj (hp.symm.trans hp')
  rcases hcase with ⟨r, hreq, _⟩ | ⟨w, hreq, hs⟩ | ⟨q, hreq, _, hs⟩
  · obtain ⟨q, hq⟩ := (exists_request_iff hl a).mpr ha
    cases hreq.symm.trans hq
  · obtain ⟨t, ht, hprog, hobs⟩ := runCommandWord_keepsHost w (s.setHostProgram rest)
    exact ⟨t, hs.trans ht, hprog, by rw [hobs, readCount_singleton_of_request hreq]; rfl⟩
  · refine ⟨_, hs, perform_hostProgram .., ?_⟩
    rw [length_observations_perform, readCount_singleton_of_request hreq]
    rfl

/-! ### A run -/

theorem run_succ_of_step {M : Host.Core} {s t : M.State} (h : M.step s = .next t) (n : Nat) :
    M.run (n + 1) s = M.run n t := by
  rw [Host.Core.run, h]

/-- A run of well-formed accesses, one step for each, by induction on the accesses still to be made. -/
theorem run_of_wellFormed (as : List HostAccess) : ∀ s : State, s.cfg.legal = true → s.hostProgram = as →
    (∀ a ∈ as, a.wellFormed s.cfg = true) → ∃ t : State, Host.Core.run core as.length s = .next t ∧
      t.hostProgram = [] ∧ t.observations.length = s.observations.length + readCount as := by
  induction as with
  | nil => exact fun s _ hp _ => ⟨s, rfl, hp, rfl⟩
  | cons a rest ih =>
    intro s hl hp hwf
    obtain ⟨ha, hrest⟩ := List.forall_mem_cons.mp hwf
    obtain ⟨t, hs, hprog, hobs⟩ := step_of_wellFormed hl hp ha
    rw [← step_cfg hs] at hl hrest
    obtain ⟨u, hrun, hend, hobs'⟩ := ih t hl hprog hrest
    exact ⟨u, (run_succ_of_step (M := core) hs rest.length).trans hrun, hend,
      by rw [hobs', hobs, Nat.add_assoc, ← readCount_cons]⟩

/-- Settles O13: the run of the accesses the state holds. -/
theorem everySafeRunEnds : Obligations.EverySafeRunEnds := fun s hl hsafe => run_of_wellFormed _ s hl rfl hsafe

end Sys2Proof.Machine
end
